-- ==== Sys2Proof/Word.lean ====
section
/-! DEFINITION. The bit vectors of the format: bytes, the token's three fields, the packed word, the header
(00_scope.md R8, R11). Positions, cursors and cell indices are natural numbers, not words: "All arithmetic written in
rules ... is exact arithmetic on natural numbers with no wrap-around" (R11). -/

namespace Sys2Proof

/-- A byte, `LIT_BITS` = 8 (R8, R11). -/
abbrev Byte := BitVec 8

/-- The distance field of a token, `DIST_BITS` = 12 (R8, R92). -/
abbrev Dist := BitVec 12

/-- The length field of a token, `LEN_BITS` = 4 (R8, R92). -/
abbrev Len := BitVec 4

/-- The packed 16-bit word of a token (R92, R93). -/
abbrev TokenWord := BitVec 16

/-- The header field `N`, an "unsigned 32-bit byte count" (R91). -/
abbrev HeaderWord := BitVec 32

/-- The widest host-visible register: SRC_LEN, OUT_LEN and IN_POS are 64 bits (10_state.md R21). -/
abbrev Reg64 := BitVec 64

end Sys2Proof
end

