-- ==== Sys2Proof/Config.lean ====
section
/-! DEFINITION. What is fixed for the format (00_scope.md R8), what an implementation chooses (R9), and the free values
of what the spec leaves unspecified (93_implementation_defined.md U4, U5) or says
nothing of (log 23). -/

namespace Sys2Proof

/-- What becomes of a host write of SRC_LEN while BUSY. The spec's rules differ and no ruling decides between them, so
both readings are in the model, as a parameter of its own (log 24). -/
inductive SrcLenWhileBusy where
  /-- "writes while BUSY are ignored" (10_state.md R21, 43_host_commands.md R196). -/
  | ignored
  /-- "no write to `SRC_LEN` while phase = BUSY ... the model gives the host no such move" (20_memory.md R74). -/
  | noMove
  deriving DecidableEq, Repr

/-- The open parameters of R9, the number of cells of each memory, `none` for `unbounded`, and the reading of log 24.
A state carries them in a field that no step writes (log 1). -/
structure Config where
  /-- `DST_CAP` (92_eei_decisions.md D14). -/
  dstCap : Option Nat
  /-- `SRC_CAP` (92_eei_decisions.md D27). -/
  srcCap : Option Nat
  /-- The reading of the rules on a write of SRC_LEN while BUSY (log 24). -/
  srcLenWhileBusy : SrcLenWhileBusy
  deriving DecidableEq, Repr

namespace Config

/-- `WINDOW` = 4095: the greatest distance a back-reference may have (R8). -/
def window : Nat := 4095

/-- `MAX_LEN` = 15: the greatest match length (R8). -/
def maxLen : Nat := 15

/-- `TOKEN_BYTES` = 3 (R8). -/
def tokenBytes : Nat := 3

/-- `HEADER_BYTES` = 4 (R8). -/
def headerBytes : Nat := 4

/-- `N_MAX` = 2^32 - 1: the greatest uncompressed length the header can state (R8). -/
def nMax : Nat := 4294967295

/-- Both capacities at their default `unbounded` (R9); the reading of R21 and R196 (log 24). -/
def unbounded : Config := { dstCap := none, srcCap := none, srcLenWhileBusy := .ignored }

/-- A free value of `w` bits: nothing is known of it, so a claim holds for every value it may have. `tick` is the
state's counter `freeCount`, `slot` tells apart values drawn at one tick (log 4, log 5,
log 23). -/
opaque freeBits (w tick slot : Nat) : BitVec w

end Config

end Sys2Proof
end

