-- ==== Sys2Proof/Syntax.lean ====
section
/-! DEFINITION. The rows of spec/opcode_table.json as one inductive, and the three formats of 30_encoding.md R90. -/

namespace Sys2Proof

/-- "There are three formats and no others" (R90). -/
inductive Format where
  /-- Format C: the 2-bit command code written to CMD (R98). -/
  | command
  /-- Format H: the 4-byte header (R91). -/
  | header
  /-- Format T: the 3-byte token (R92). -/
  | token
  deriving DecidableEq, Repr

/-- One constructor per row of the opcode table. The commands carry no operand; a header carries `N`; a token carries
the fields its class leaves open; the internal operations work on the working registers, but for UNPACK, whose inputs
are the three bytes fetched. -/
inductive Instr where
  /-- COMPRESS (43_host_commands.md R191). -/
  | compress
  /-- DECOMPRESS (R192). -/
  | decompress
  /-- CMD.RESERVED0: command code 0 (10_state.md R22). -/
  | cmdReserved0
  /-- CMD.RESERVED3: command code 3 (R22). -/
  | cmdReserved3
  /-- HDR (42_token_decoder.md R161). -/
  | hdr (n : HeaderWord)
  /-- LIT: `tdist = 0`, `tlen = 0` (R173). -/
  | lit (l : Byte)
  /-- LITX: `tdist = 0`, `tlen ≥ 1` (R177). -/
  | litx (tlen : Len) (l : Byte)
  /-- COPY0: `tdist ≥ 1`, `tlen = 0` (R176). -/
  | copy0 (tdist : Dist) (l : Byte)
  /-- COPY: `tdist ≥ 1`, `tlen ≥ 1` (R174). -/
  | copy (tdist : Dist) (tlen : Len) (l : Byte)
  /-- MF.SEARCH (40_match_finder.md R129). -/
  | mfSearch
  /-- ENC.HDR (41_token_encoder.md R142). -/
  | encHdr
  /-- ENC.NORMAL (R145). -/
  | encNormal
  /-- ENC.BOUNDARY (R146). -/
  | encBoundary
  /-- PACK (R147). -/
  | pack
  /-- UNPACK (R164, R94). -/
  | unpack (b0 b1 b2 : Byte)
  deriving DecidableEq, Repr

/-- The format an instruction is encoded in; an internal operation "has no bit pattern" (opcode_table.json). -/
def Instr.format : Instr → Option Format
  | .compress => some .command
  | .decompress => some .command
  | .cmdReserved0 => some .command
  | .cmdReserved3 => some .command
  | .hdr _ => some .header
  | .lit _ => some .token
  | .litx _ _ => some .token
  | .copy0 _ _ => some .token
  | .copy _ _ _ => some .token
  | .mfSearch => none
  | .encHdr => none
  | .encNormal => none
  | .encBoundary => none
  | .pack => none
  | .unpack _ _ _ => none

end Sys2Proof
end

