-- ==== Sys2Proof/WellFormed.lean ====
section
/-! DEFINITION. The side conditions of the four token classes (30_encoding.md R100, R109): LITX, COPY0 and COPY name
fields that must not be zero, or the token belongs to another class. Every other instruction is well-formed as it is:
no token pattern and no header value is illegal (R96, R97). -/

namespace Sys2Proof

/-- The class conditions of R100. -/
def Instr.wellFormed : Instr → Bool
  | .compress => true
  | .decompress => true
  | .cmdReserved0 => true
  | .cmdReserved3 => true
  | .hdr _ => true
  | .lit _ => true
  | .litx tlen _ => decide (tlen ≠ 0)
  | .copy0 tdist _ => decide (tdist ≠ 0)
  | .copy tdist tlen _ => decide (tdist ≠ 0) && decide (tlen ≠ 0)
  | .mfSearch => true
  | .encHdr => true
  | .encNormal => true
  | .encBoundary => true
  | .pack => true
  | .unpack _ _ _ => true

end Sys2Proof
end

