-- ==== Sys2Proof/Decode.lean ====
section
/-! DEFINITION. The bit fields of the three formats, the decoder, the encoder and the textual form
(30_encoding.md R91 to R111, R105, R106). -/

namespace Sys2Proof

/-! ## Bit fields and byte order -/

/-- The little-endian 16-bit word `b0 + 256*b1` (R94, 20_memory.md R67). -/
def wordOfBytes (b0 b1 : Byte) : TokenWord :=
  BitVec.ofNat 16 (b0.toNat + 256 * b1.toNat)

/-- The little-endian header `byte0 + 2^8*byte1 + 2^16*byte2 + 2^24*byte3` (R91). -/
def headerOfBytes (b0 b1 b2 b3 : Byte) : HeaderWord :=
  BitVec.ofNat 32 (b0.toNat + 2 ^ 8 * b1.toNat + 2 ^ 16 * b2.toNat + 2 ^ 24 * b3.toNat)

/-- PACK's word: `(tdist << 4) | tlen` (R93). -/
def packWord (tdist : Dist) (tlen : Len) : TokenWord :=
  (tdist.setWidth 16 <<< 4) ||| tlen.setWidth 16

/-- `tdist <- word >> 4` (R94). -/
def distField (w : TokenWord) : Dist := (w >>> 4).setWidth 12

/-- `tlen <- word & 0xF` (R94). -/
def lenField (w : TokenWord) : Len := (w &&& 0xF#16).setWidth 4

/-- `word[7:0]` (R93). -/
def lowByte (w : TokenWord) : Byte := w.extractLsb' 0 8

/-- `word[15:8]` (R93). -/
def highByte (w : TokenWord) : Byte := w.extractLsb' 8 8

/-! ## Decoding -/

/-- Format C: the command is the value of bits 1:0 of the written value; no other bit is looked at (R98, R22). -/
def decodeCommand (v : Byte) : Instr :=
  if v.extractLsb' 0 2 = 0#2 then .cmdReserved0
  else if v.extractLsb' 0 2 = 1#2 then .compress
  else if v.extractLsb' 0 2 = 2#2 then .decompress
  else .cmdReserved3

/-- Format H: "Every 32-bit value is a legal header" (R91). -/
def decodeHeader (b0 b1 b2 b3 : Byte) : Instr := .hdr (headerOfBytes b0 b1 b2 b3)

/-- The class of a token: "test `tdist = 0` first; then `tlen = 0`" (R100). -/
def classify (tdist : Dist) (tlen : Len) (l : Byte) : Instr :=
  if tdist = 0 then
    if tlen = 0 then .lit l else .litx tlen l
  else
    if tlen = 0 then .copy0 tdist l else .copy tdist tlen l

/-- Format T: unpack the three bytes (R94) and classify (R100). -/
def decodeToken (b0 b1 b2 : Byte) : Instr :=
  classify (distField (wordOfBytes b0 b1)) (lenField (wordOfBytes b0 b1)) b2

/-- Why a byte sequence is no instruction of a format: it ends too early. No complete pattern is refused (R96, R97). -/
inductive DecodeError where
  /-- No byte was written to CMD. -/
  | commandMissing
  /-- Fewer than the header's 4 bytes (R161). -/
  | headerTooShort
  /-- Fewer than a token's 3 bytes (R163). -/
  | tokenTooShort
  deriving DecidableEq, Repr

/-- A decoded instruction with the bytes that follow it, or the reason there is none. -/
inductive Decoded where
  | ok (i : Instr) (rest : List Byte)
  | error (e : DecodeError)
  deriving DecidableEq, Repr

/-- The decoder, total on any bytes. Which format applies is a matter of place, not of bits (R90, R99): the value
written to CMD is format C, stream index 0 is format H, stream index 4 + 3k is format T. -/
def decode : Format → List Byte → Decoded
  | .command, b :: rest => .ok (decodeCommand b) rest
  | .command, [] => .error .commandMissing
  | .header, b0 :: b1 :: b2 :: b3 :: rest => .ok (decodeHeader b0 b1 b2 b3) rest
  | .header, _ => .error .headerTooShort
  | .token, b0 :: b1 :: b2 :: rest => .ok (decodeToken b0 b1 b2) rest
  | .token, _ => .error .tokenTooShort

/-! ## Encoding -/

/-- The three bytes of a token (R92, R93): `word[7:0]`, `word[15:8]`, `lit`. -/
def tokenBytes (tdist : Dist) (tlen : Len) (l : Byte) : List Byte :=
  [lowByte (packWord tdist tlen), highByte (packWord tdist tlen), l]

/-- The four bytes of a header (R91): `N[7:0]`, `N[15:8]`, `N[23:16]`, `N[31:24]`. -/
def headerBytes (n : HeaderWord) : List Byte :=
  [n.extractLsb' 0 8, n.extractLsb' 8 8, n.extractLsb' 16 8, n.extractLsb' 24 8]

/-- The bytes of an instruction. A command is its 2-bit code in one byte (log 22); an internal operation has no
encoding and gives no bytes. -/
def encode : Instr → List Byte
  | .compress => [1#8]
  | .decompress => [2#8]
  | .cmdReserved0 => [0#8]
  | .cmdReserved3 => [3#8]
  | .hdr n => headerBytes n
  | .lit l => tokenBytes 0 0 l
  | .litx tlen l => tokenBytes 0 tlen l
  | .copy0 tdist l => tokenBytes tdist 0 l
  | .copy tdist tlen l => tokenBytes tdist tlen l
  | .mfSearch => []
  | .encHdr => []
  | .encNormal => []
  | .encBoundary => []
  | .pack => []
  | .unpack _ _ _ => []

/-! ## The opcode table's numbering -/

/-- Byte `k` of a table word: bit 0 of the table word is bit 0 of the first byte. -/
def tableByte (w k : Nat) : Byte := BitVec.ofNat 8 (w / 2 ^ (8 * k))

/-- The format of a table row by its size: up to one byte a command code, up to three bytes a token, four bytes the
header (log 22). -/
def tableFormat (nbits : Nat) : Option Format :=
  if nbits ≤ 8 then some .command
  else if nbits ≤ 24 then some .token
  else if nbits ≤ 32 then some .header
  else none

/-- The bytes of a table word, laid out as the format stores them. -/
def tableBytes (f : Format) (w : Nat) : List Byte :=
  match f with
  | .command => [tableByte w 0]
  | .header => [tableByte w 0, tableByte w 1, tableByte w 2, tableByte w 3]
  | .token => [tableByte w 0, tableByte w 1, tableByte w 2]

/-- The instruction the decoder reads from a word numbered as spec/opcode_table.json numbers it. -/
def decodeTableWord (nbits w : Nat) : Option Instr :=
  match tableFormat nbits with
  | none => none
  | some f =>
    match decode f (tableBytes f (w % 2 ^ nbits)) with
    | .ok i _ => some i
    | .error _ => none

/-! ## Textual form -/

/-- `TOK <tdist>, <tlen>, <lit>` (R105). -/
def tokText (tdist : Dist) (tlen : Len) (l : Byte) : String :=
  "TOK " ++ toString tdist.toNat ++ ", " ++ toString tlen.toNat ++ ", " ++ toString l.toNat

/-- The line of a stream's text (R105); only headers and tokens have one. -/
def Instr.text : Instr → Option String
  | .hdr n => some ("HDR " ++ toString n.toNat)
  | .lit l => some (tokText 0 0 l)
  | .litx tlen l => some (tokText 0 tlen l)
  | .copy0 tdist l => some (tokText tdist 0 l)
  | .copy tdist tlen l => some (tokText tdist tlen l)
  | .compress => none
  | .decompress => none
  | .cmdReserved0 => none
  | .cmdReserved3 => none
  | .mfSearch => none
  | .encHdr => none
  | .encNormal => none
  | .encBoundary => none
  | .pack => none
  | .unpack _ _ _ => none

/-- The pseudo-form of a token's line (R106). -/
def Instr.pseudoText : Instr → Option String
  | .lit l => some ("LIT " ++ toString l.toNat)
  | .litx tlen l => some ("LITX " ++ toString tlen.toNat ++ ", " ++ toString l.toNat)
  | .copy0 tdist l => some ("COPY0 " ++ toString tdist.toNat ++ ", " ++ toString l.toNat)
  | .copy tdist tlen l =>
    some ("COPY " ++ toString tdist.toNat ++ ", " ++ toString tlen.toNat ++ ", " ++ toString l.toNat)
  | .hdr _ => none
  | .compress => none
  | .decompress => none
  | .cmdReserved0 => none
  | .cmdReserved3 => none
  | .mfSearch => none
  | .encHdr => none
  | .encNormal => none
  | .encBoundary => none
  | .pack => none
  | .unpack _ _ _ => none

end Sys2Proof
end

