-- ==== Sys2Proof/Machine/State.lean ====
section
/-! DEFINITION. The machine's state as plain data (10_state.md), the reasons a step can stop, and the state after
reset (R40). -/

namespace Sys2Proof.Machine

/-- `STATUS.phase` (10_state.md R20, R24). -/
inductive Phase where
  | idle | busy | done | fault
  deriving DecidableEq, Repr

/-- `STATUS.op`: the command of the running or last accepted job (R24). -/
inductive Op where
  | none | compress | decompress
  deriving DecidableEq, Repr

/-- `CAUSE.sub` of a `MalformedStream` (R25, 60_exceptions.md R210). -/
inductive SubCause where
  | backRefBeforeStart | overrun | truncated
  deriving DecidableEq, Repr

/-- `CAUSE`: no condition, or one of the conditions of R210. `sub` is present only with `MalformedStream` (R25). -/
inductive Cause where
  | none
  | malformedStream (sub : SubCause)
  | inputTooLarge
  | outputTooLarge
  deriving DecidableEq, Repr

/-- The six host-visible registers (R21). -/
inductive Reg where
  | cmd | srcLen | status | cause | outLen | inPos
  deriving DecidableEq, Repr

/-- A byte memory as (index, byte) pairs: indices strictly rising, no pair that holds what an unlisted index reads as. -/
abbrev Memory := List Host.Cell

/-- The working registers (R30, R31). Positions and indices are natural numbers: no stored value is ever truncated
(R31), and their ranges are an invariant of the machine. `mdist`, `mlen` and `adv` are the values by those names in
R127, R145 and R146 (log 13). -/
structure Working where
  /-- Uncompressed length in bytes. -/
  N : Nat
  /-- COMPRESS: the coding position. -/
  p : Nat
  /-- COMPRESS: write index in DST. -/
  wp : Nat
  /-- MF.SEARCH: distance of the incumbent, 0 if none. -/
  bd : Dist
  /-- MF.SEARCH: length of the incumbent, 0 if none. -/
  bl : Len
  /-- MF.SEARCH: candidate distance being tried. -/
  d : Dist
  /-- MF.SEARCH: length the candidate has reached. -/
  len : Len
  /-- MF.SEARCH's result distance (R127). -/
  mdist : Dist
  /-- MF.SEARCH's result length (R127). -/
  mlen : Len
  /-- The advance of a COMPRESS token step (R148). -/
  adv : Nat
  /-- DECOMPRESS: the write cursor. -/
  cursor : Nat
  /-- DECOMPRESS: read index in SRC, the program counter (R32). -/
  rp : Nat
  /-- The packed word. -/
  word : TokenWord
  /-- The token's distance field. -/
  tdist : Dist
  /-- The token's length field. -/
  tlen : Len
  /-- The token's literal. -/
  lit : Byte
  /-- DECOMPRESS: index within the back-copy. -/
  i : Len
  deriving DecidableEq, Repr

/-- A move of the environment, or the core's turn. Moves land between steps (log 6). -/
inductive Input where
  /-- The core takes one step. -/
  | core
  /-- `reset` is asserted and released (70_reset_and_hazards.md R240, R241). -/
  | reset
  /-- The host writes a cell of SRC (43_host_commands.md R196). -/
  | writeSrc (a : Nat) (b : Byte)
  /-- The host writes SRC_LEN (10_state.md R23); while BUSY, as log 24 says. -/
  | writeSrcLen (v : Reg64)
  /-- The host writes CMD (R22). -/
  | writeCmd (v : Reg64)
  /-- The host reads a register (R21). -/
  | readReg (r : Reg)
  /-- The host reads a cell of DST (R196). -/
  | readDst (a : Nat)
  deriving DecidableEq, Repr

/-- The whole machine. -/
structure State where
  /-- `STATUS.phase`. -/
  phase : Phase
  /-- `STATUS.op`. -/
  op : Op
  /-- `CAUSE`. -/
  cause : Cause
  /-- `SRC_LEN` (R23). -/
  srcLen : Reg64
  /-- `OUT_LEN` (R26). -/
  outLen : Reg64
  /-- `IN_POS` (R27). -/
  inPos : Reg64
  /-- The working registers (R30). -/
  work : Working
  /-- SRC (R36). -/
  src : Memory
  /-- DST (R37). -/
  dst : Memory
  /-- DST_CAP and SRC_CAP (00_scope.md R9), and the reading of log 24: no step writes this field (log 1). -/
  cfg : Config
  /-- The environment's moves, oldest first; when there is none it is the core's turn (log 6). -/
  inputs : List Input
  /-- What the host's last read returned (log 20). -/
  hostData : Reg64
  /-- The model's own counter: the free values are drawn with it (log 5). -/
  freeCount : Nat
  deriving DecidableEq, Repr

/-- The reasons the machine stops with a fault. No run of a host that keeps its duties raises one; the core's own error
conditions are next states in phase FAULT (60_exceptions.md R214). -/
inductive Fault where
  /-- A cell of SRC at an index at or above a finite SRC_CAP: raised by every access to SRC; the cell does not exist
  (R36). Safe: the machine stops where the hardware has nothing to access (log 9). -/
  | noSuchSrcCell
  /-- A cell of DST at an index at or above a finite DST_CAP: raised by every access to DST; the cell does not exist
  (R37). Safe (log 9). -/
  | noSuchDstCell
  /-- The core's turn in phase BUSY with `op = none`, a state the core is never in (R24): raised by the sequencer.
  Safe (log 19). -/
  | busyWithoutJob
  deriving DecidableEq, Repr

/-- The reasons a step is refused. -/
inductive Refusal where
  /-- An instruction that has no meaning yet; raised by exec's arms only. Safe. -/
  | notModelled (mnemonic : String)
  /-- The host touches SRC or DST while phase = BUSY, which its duty forbids (R197 (c), U8): raised by the host's
  moves. Safe (log 7). -/
  | hostTouchesMemoryWhileBusy
  /-- The host writes SRC_LEN while phase = BUSY, under the reading of 20_memory.md R74, "the model gives the host no
  such move": raised by the host's move. Safe (log 24). -/
  | hostWritesSrcLenWhileBusy
  /-- A job is started with SRC_LEN > SRC_CAP, to which "the model gives no meaning" (20_memory.md R84, U10): raised by
  COMPRESS and DECOMPRESS. Safe (log 8). -/
  | srcLenBeyondCapacity
  /-- ENC.NORMAL run with `p + mlen ≥ N`, or ENC.BOUNDARY without `mlen ≥ 1` and `p + mlen = N`: the operation has no
  meaning there (R145, R146, U1): raised by these two. Safe (log 14). -/
  | emissionModeMismatch
  deriving DecidableEq, Repr

/-- The working registers in `State.reset`: the spec gives none a value (R40), the model names zero (log 3). -/
def Working.reset : Working where
  N := 0
  p := 0
  wp := 0
  bd := 0
  bl := 0
  d := 0
  len := 0
  mdist := 0
  mlen := 0
  adv := 0
  cursor := 0
  rp := 0
  word := 0
  tdist := 0
  tlen := 0
  lit := 0
  i := 0

/-- The machine right after reset (R40): phase IDLE, op none, CAUSE, OUT_LEN, IN_POS, SRC_LEN 0; memories with nothing
listed (log 2); parameters at their defaults (R9). -/
def State.reset : State where
  phase := .idle
  op := .none
  cause := .none
  srcLen := 0
  outLen := 0
  inPos := 0
  work := Working.reset
  src := []
  dst := []
  cfg := Config.unbounded
  inputs := []
  hostData := 0
  freeCount := 0

end Sys2Proof.Machine
end

