-- ==== Sys2Proof/Machine/Ops.lean ====
section
/-! DEFINITION. The operations all meanings share: the two memories (00_scope.md R14, 20_memory.md), the capacities
(R65, R84), the named updates of the state, raising a condition (60_exceptions.md R214), starting and ending a job
(10_state.md R41, 43_host_commands.md R195), and reset (R40). -/

namespace Sys2Proof.Machine

/-! ## Outcomes -/

/-- Go on with `f` after a next state; a fault or a refusal stays. -/
def andThen (o : Host.Outcome State Fault Refusal) (f : State → Host.Outcome State Fault Refusal) :
    Host.Outcome State Fault Refusal :=
  match o with
  | .next s => f s
  | .fault r => .fault r
  | .refused r => .refused r

/-! ## Memory -/

/-- What an index that is not listed reads as (log 2). -/
def Memory.fill : Byte := 0

/-- The byte at an index. -/
def Memory.read : Memory → Nat → Byte
  | [], _ => Memory.fill
  | (k, b) :: m, a => if k = a then b else Memory.read m a

/-- Put the pair `(a, b)` at its place, over a pair of the same index. -/
def Memory.insert : Memory → Nat → Byte → Memory
  | [], a, b => [(a, b)]
  | (k, c) :: m, a, b =>
    if k < a then (k, c) :: Memory.insert m a b
    else if k = a then (a, b) :: m
    else (a, b) :: (k, c) :: m

/-- Write one byte: `DST[a] <- b`. -/
def Memory.write (m : Memory) (a : Nat) (b : Byte) : Memory :=
  if b = Memory.fill then m.filter (fun c => c.1 ≠ a) else Memory.insert m a b

/-- The canonical form: indices strictly rising, no pair that an unlisted index would read as. -/
abbrev Memory.wf (m : Memory) : Prop :=
  m.Pairwise (fun x y => x.1 < y.1) ∧ ∀ c ∈ m, c.2 ≠ Memory.fill

/-- The `n` bytes from index `a`, one access per index in ascending order. -/
def Memory.readBytes (m : Memory) : Nat → Nat → List Byte
  | _, 0 => []
  | a, n + 1 => m.read a :: Memory.readBytes m (a + 1) n

/-- Write bytes from index `a` on, one access per index in ascending order. -/
def Memory.writeBytes (m : Memory) : Nat → List Byte → Memory
  | _, [] => m
  | a, b :: bs => Memory.writeBytes (m.write a b) (a + 1) bs

/-- The `n` low-order bytes of `v`, little-endian (R14). -/
def bytesLE : Nat → Nat → List Byte
  | 0, _ => []
  | n + 1, v => BitVec.ofNat 8 v :: bytesLE n (v / 256)

/-- `MemWrite(M, a, n, v)` (R14). -/
def Memory.memWrite (m : Memory) (a n v : Nat) : Memory := m.writeBytes a (bytesLE n v)

/-! ## Capacities -/

/-- Whether a memory of the given capacity has the cells `0` to `n - 1`. -/
def hasCells (cap : Option Nat) (n : Nat) : Bool :=
  match cap with
  | none => true
  | some c => decide (n ≤ c)

/-- Whether SRC has the cells below `n` (R36). -/
def State.srcHas (s : State) (n : Nat) : Bool := hasCells s.cfg.srcCap n

/-- Whether DST has the cells below `n` (R37, R65). -/
def State.dstHas (s : State) (n : Nat) : Bool := hasCells s.cfg.dstCap n

/-- Go on only if SRC has the cells below `n`, those about to be read. -/
def State.needSrc (s : State) (n : Nat) (o : Host.Outcome State Fault Refusal) : Host.Outcome State Fault Refusal :=
  if s.srcHas n then o else .fault .noSuchSrcCell

/-- Go on only if DST has the cells below `n`, those about to be written. -/
def State.needDst (s : State) (n : Nat) (o : Host.Outcome State Fault Refusal) : Host.Outcome State Fault Refusal :=
  if s.dstHas n then o else .fault .noSuchDstCell

/-! ## Named updates of the state -/

/-- Replace the working registers. -/
def State.setWork (s : State) (w : Working) : State := { s with work := w }

/-- Replace DST. -/
def State.setDst (s : State) (m : Memory) : State := { s with dst := m }

/-- Replace SRC. -/
def State.setSrc (s : State) (m : Memory) : State := { s with src := m }

/-- Replace SRC_LEN. -/
def State.setSrcLen (s : State) (v : Reg64) : State := { s with srcLen := v }

/-- Replace the list of the environment's moves. -/
def State.setInputs (s : State) (l : List Input) : State := { s with inputs := l }

/-- Hand a value to the host's read. -/
def State.setHostData (s : State) (v : Reg64) : State := { s with hostData := v }

/-- Count one use of the free values. -/
def State.countFree (s : State) : State := { s with freeCount := s.freeCount + 1 }

/-! ## Conditions, start and end of a job, reset -/

/-- `raise X(sub)` (R214): as one action CAUSE, OUT_LEN, IN_POS and phase FAULT; "Nothing else changes". The caller
gives the pointers' values at the raise, 0 where they are "not yet set". -/
def State.raised (s : State) (c : Cause) (outLen inPos : Nat) : State :=
  { s with cause := c, outLen := BitVec.ofNat 64 outLen, inPos := BitVec.ofNat 64 inPos, phase := .fault }

/-- Taking a condition: the next state is the one `raised` gives (R214). The one way back is the next accepted command
(`State.started`, R221) or reset. -/
def raise (s : State) (c : Cause) (outLen inPos : Nat) : Host.Outcome State Fault Refusal :=
  .next (s.raised c outLen inPos)

/-- The writes to the host-visible registers when a command is accepted (R41). They end a FAULT as well (R221). -/
def State.started (s : State) (op : Op) : State :=
  { s with cause := .none, outLen := 0, inPos := 0, phase := .busy, op := op }

/-- The normal end of a job (R195): OUT_LEN, IN_POS and phase DONE. -/
def State.finished (s : State) (outLen inPos : Nat) : State :=
  { s with outLen := BitVec.ofNat 64 outLen, inPos := BitVec.ofNat 64 inPos, phase := .done }

/-- The working registers after a reset input: "unspecified" (R40, U5), so each is a free value of its width (log 4). -/
def Working.free (tick : Nat) : Working where
  N := (Config.freeBits 32 tick 0).toNat
  p := (Config.freeBits 32 tick 1).toNat
  wp := (Config.freeBits 34 tick 2).toNat
  bd := Config.freeBits 12 tick 3
  bl := Config.freeBits 4 tick 4
  d := Config.freeBits 12 tick 5
  len := Config.freeBits 4 tick 6
  mdist := Config.freeBits 12 tick 7
  mlen := Config.freeBits 4 tick 8
  adv := (Config.freeBits 5 tick 9).toNat
  cursor := (Config.freeBits 32 tick 10).toNat
  rp := (Config.freeBits 64 tick 11).toNat
  word := Config.freeBits 16 tick 12
  tdist := Config.freeBits 12 tick 13
  tlen := Config.freeBits 4 tick 14
  lit := Config.freeBits 8 tick 15
  i := Config.freeBits 4 tick 16

/-- The `reset` input (R40, R240, R241): the host-visible registers at their reset values in any phase, the working
registers unspecified, SRC and DST not written. -/
def State.afterReset (s : State) : State :=
  { s with
    phase := .idle, op := .none, cause := .none, srcLen := 0, outLen := 0, inPos := 0,
    work := Working.free s.freeCount, freeCount := s.freeCount + 1 }

end Sys2Proof.Machine
end

