-- ==== Sys2Proof/Machine/Flags.lean ====
section
/-! DEFINITION. The status outputs and the register words the host reads (10_state.md R21 to R28). The core has no
condition codes; "The only flags are three level outputs that mirror `STATUS.phase`" (R28). -/

namespace Sys2Proof.Machine

/-- Output `busy` (R28). -/
def State.busyOut (s : State) : Bool := decide (s.phase = .busy)

/-- Output `done` (R28). -/
def State.doneOut (s : State) : Bool := decide (s.phase = .done)

/-- Output `fault` (R28). -/
def State.faultOut (s : State) : Bool := decide (s.phase = .fault)

/-- `STATUS[1:0]` (R24). -/
def Phase.code : Phase → BitVec 2
  | .idle => 0
  | .busy => 1
  | .done => 2
  | .fault => 3

/-- `STATUS[3:2]` (R24). -/
def Op.code : Op → BitVec 2
  | .none => 0
  | .compress => 1
  | .decompress => 2

/-- `CAUSE[7:4]` of a `MalformedStream` (R25). -/
def SubCause.code : SubCause → BitVec 4
  | .backRefBeforeStart => 1
  | .overrun => 2
  | .truncated => 3

/-- `CAUSE[3:0]` (R25). -/
def Cause.code : Cause → BitVec 4
  | .none => 0
  | .malformedStream _ => 1
  | .inputTooLarge => 2
  | .outputTooLarge => 3

/-- `CAUSE[7:4]` (R25). -/
def Cause.subCode : Cause → BitVec 4
  | .none => 0
  | .malformedStream sub => sub.code
  | .inputTooLarge => 0
  | .outputTooLarge => 0

/-- The 32-bit STATUS: phase, op, and bits 31:4 zero (R24). -/
def State.statusWord (s : State) : BitVec 32 := (0#28 ++ s.op.code ++ s.phase.code).setWidth 32

/-- The 32-bit CAUSE: cause, sub, and bits 31:8 zero (R25). -/
def State.causeWord (s : State) : BitVec 32 := (0#24 ++ s.cause.subCode ++ s.cause.code).setWidth 32

/-- A register's number (R21). -/
def Reg.number : Reg → Nat
  | .cmd => 0
  | .srcLen => 1
  | .status => 2
  | .cause => 3
  | .outLen => 4
  | .inPos => 5

/-- Whether the spec fixes no value for a host read of the register now: OUT_LEN and IN_POS while BUSY (R26, R27, U4),
and SRC_LEN while BUSY, a read no rule describes (R21, R196; the model's choice, log 23). -/
def State.readIsOpen (s : State) (r : Reg) : Bool :=
  s.busyOut && (decide (r = .outLen) || decide (r = .inPos) || decide (r = .srcLen))

/-- The value a host read of the register returns where the spec fixes it; CMD reads 0 (R22). -/
def State.regWord (s : State) : Reg → Reg64
  | .cmd => 0
  | .srcLen => s.srcLen
  | .status => s.statusWord.setWidth 64
  | .cause => s.causeWord.setWidth 64
  | .outLen => s.outLen
  | .inPos => s.inPos

end Sys2Proof.Machine
end

