-- ==== Sys2Proof/Machine/Operands.lean ====
section
/-! DEFINITION. The operands of the token step: effective length, span, and every index the core forms
(20_memory.md R79, 30_encoding.md R107). -/

namespace Sys2Proof.Machine

/-- `eff`: `tlen` if `tdist ≥ 1`, else 0 (42_token_decoder.md R165). -/
def effLen (tdist : Dist) (tlen : Len) : Nat := if tdist = 0 then 0 else tlen.toNat

/-- The bytes a token produces: `span = eff + 1` (R107). -/
def span (tdist : Dist) (tlen : Len) : Nat := effLen tdist tlen + 1

/-- Back-copy step `i` reads `DST[cursor - tdist + i]` (R79, R169). -/
def copySource (cursor : Nat) (tdist : Dist) (i : Nat) : Nat := cursor - tdist.toNat + i

/-- Back-copy step `i` writes `DST[cursor + i]` (R79, R169). -/
def copyTarget (cursor i : Nat) : Nat := cursor + i

/-- The literal is appended at `DST[cursor + eff]` (R170). -/
def literalIndex (cursor : Nat) (tdist : Dist) (tlen : Len) : Nat := cursor + effLen tdist tlen

/-- Normal mode's literal is `SRC[p + mlen]` (41_token_encoder.md R145). -/
def normalLiteral (w : Working) : Nat := w.p + w.mlen.toNat

/-- Boundary mode's literal is `SRC[p + mlen - 1]` (R146). -/
def boundaryLiteral (w : Working) : Nat := w.p + w.mlen.toNat - 1

/-- "the branch condition is exactly `p + mlen < N`" (R144). -/
def normalMode (w : Working) : Bool := decide (w.p + w.mlen.toNat < w.N)

/-- Boundary mode's own condition: `mlen ≥ 1` and `p + mlen = N` (R144, R146). -/
def boundaryMode (w : Working) : Bool := decide (1 ≤ w.mlen.toNat) && decide (w.p + w.mlen.toNat = w.N)

/-- The end of the token about to be fetched: `rp + 3` (R163). -/
def fetchEnd (w : Working) : Nat := w.rp + Config.tokenBytes

/-- The worst-case size of COMPRESS's output: `4 + 3*SRC_LEN` (R65, R141). -/
def worstCaseOutput (n : Nat) : Nat := Config.headerBytes + Config.tokenBytes * n

end Sys2Proof.Machine
end

