-- ==== Sys2Proof/Machine/Commands.lean ====
section
/-! DEFINITION. The host commands (43_host_commands.md R190 to R192, 10_state.md R22, R41). A command starts its job;
the sequencer's steps run it (R193). -/

namespace Sys2Proof.Machine

/-- Accepting a command (R190): "A write while phase = BUSY ... has no effect of any kind"; a job with
SRC_LEN > SRC_CAP is given no meaning (R84, log 8). -/
def accept (s : State) (start : Host.Outcome State Fault Refusal) : Host.Outcome State Fault Refusal :=
  if s.phase = .busy then .next s
  else if s.srcHas s.srcLen.toNat then start
  else .refused .srcLenBeyondCapacity

/-- The start of a COMPRESS job (R41, R140, R141): the size checks come before `N`, `p` and `wp` are set, so the raise
records 0 and 0. -/
def startCompress (s : State) : Host.Outcome State Fault Refusal :=
  if Config.nMax < s.srcLen.toNat then raise (s.started .compress) .inputTooLarge 0 0
  else if s.dstHas (worstCaseOutput s.srcLen.toNat) then
    .next ((s.started .compress).setWork { s.work with N := s.srcLen.toNat, p := 0, wp := 0 })
  else raise (s.started .compress) .inputTooLarge 0 0

/-- The start of a DECOMPRESS job (R41, R160): `cursor <- 0; rp <- 0`. -/
def startDecompress (s : State) : Host.Outcome State Fault Refusal :=
  .next ((s.started .decompress).setWork { s.work with cursor := 0, rp := 0 })

/-- COMPRESS (R191). -/
def execCompress (s : State) : Host.Outcome State Fault Refusal := accept s (startCompress s)

/-- DECOMPRESS (R192). -/
def execDecompress (s : State) : Host.Outcome State Fault Refusal := accept s (startDecompress s)

/-- CMD.RESERVED0: "changes no state at all" (R22). -/
def execCmdReserved0 (s : State) : Host.Outcome State Fault Refusal := .next s

/-- CMD.RESERVED3: "changes no state at all" (R22). -/
def execCmdReserved3 (s : State) : Host.Outcome State Fault Refusal := .next s

end Sys2Proof.Machine
end

