-- ==== Sys2Proof/Machine/Decoder.lean ====
section
/-! DEFINITION. The Token Decoder: HDR, UNPACK and the four token classes (42_token_decoder.md). The checks for a
stream that ends too early belong to the fetch (R163, R225) and stand in Machine/Sequencer.lean. -/

namespace Sys2Proof.Machine

/-- HDR's writes: `N` and `rp <- 4` (R161). -/
def Working.headed (w : Working) (n : HeaderWord) : Working := { w with N := n.toNat, rp := Config.headerBytes }

/-- HDR (R161): `N` and `rp <- 4`, then `OutputTooLarge` if DST has fewer than `N` cells; the raise sees `rp = 4`. -/
def execHdr (n : HeaderWord) (s : State) : Host.Outcome State Fault Refusal :=
  let t := s.setWork (s.work.headed n)
  if t.dstHas n.toNat then .next t else raise t .outputTooLarge t.work.cursor t.work.rp

/-- UNPACK's writes (R94): `word <- b0 + 256*b1; tdist <- word >> 4; tlen <- word & 0xF; lit <- b2`. -/
def Working.unpacked (w : Working) (b0 b1 b2 : Byte) : Working :=
  { w with
    word := wordOfBytes b0 b1, tdist := distField (wordOfBytes b0 b1), tlen := lenField (wordOfBytes b0 b1),
    lit := b2 }

/-- UNPACK (R94, R164) of the three bytes fetched (R163). -/
def execUnpack (b0 b1 b2 : Byte) (s : State) : Host.Outcome State Fault Refusal :=
  .next (s.setWork (s.work.unpacked b0 b1 b2))

/-- The back-copy (R169), byte-serial: each step reads `DST[cursor - tdist + i]` from the memory the steps before it
wrote, then writes `DST[cursor + i]`. `k` steps remain. -/
def backCopy (cursor : Nat) (tdist : Dist) : (k : Nat) → (i : Nat) → Memory → Memory
  | 0, _, m => m
  | k + 1, i, m =>
    backCopy cursor tdist k (i + 1) (m.write (copyTarget cursor i) (m.read (copySource cursor tdist i)))

/-- DST after a token: the back-copy, then the literal at `cursor + eff` (R169, R170). -/
def tokenDst (m : Memory) (cursor : Nat) (tdist : Dist) (tlen : Len) (l : Byte) : Memory :=
  (backCopy cursor tdist (effLen tdist tlen) 0 m).write (literalIndex cursor tdist tlen) l

/-- The registers after a token: `cursor <- cursor + eff + 1`, `rp <- rp + 3`, and the copy's index past its last step
(R170, R171, log 11). -/
def Working.tokenDone (w : Working) (tdist : Dist) (tlen : Len) : Working :=
  { w with
    cursor := w.cursor + span tdist tlen, rp := w.rp + Config.tokenBytes,
    i := BitVec.ofNat 4 (effLen tdist tlen) }

/-- The token step after fetch and unpack (R165 to R171), the same for all four classes: first the back-reference
check, then the overrun check, both before anything is written (R166); then copy, literal, advance. -/
def tokenStep (tdist : Dist) (tlen : Len) (l : Byte) (s : State) : Host.Outcome State Fault Refusal :=
  if s.work.cursor < tdist.toNat then
    raise s (.malformedStream .backRefBeforeStart) s.work.cursor s.work.rp
  else if s.work.N < s.work.cursor + span tdist tlen then
    raise s (.malformedStream .overrun) s.work.cursor s.work.rp
  else
    s.needDst (s.work.cursor + span tdist tlen)
      (.next ((s.setDst (tokenDst s.dst s.work.cursor tdist tlen l)).setWork (s.work.tokenDone tdist tlen)))

/-- LIT (R173). -/
def execLit (l : Byte) (s : State) : Host.Outcome State Fault Refusal := tokenStep 0 0 l s

/-- LITX (R177): "the `tlen` bits are ignored", by `effLen` of distance 0. -/
def execLitx (tlen : Len) (l : Byte) (s : State) : Host.Outcome State Fault Refusal := tokenStep 0 tlen l s

/-- COPY0 (R176): the distance is checked, nothing is copied. -/
def execCopy0 (tdist : Dist) (l : Byte) (s : State) : Host.Outcome State Fault Refusal := tokenStep tdist 0 l s

/-- COPY (R174). -/
def execCopy (tdist : Dist) (tlen : Len) (l : Byte) (s : State) : Host.Outcome State Fault Refusal :=
  tokenStep tdist tlen l s

end Sys2Proof.Machine
end

