-- ==== Sys2Proof/Machine/Encoder.lean ====
section
/-! DEFINITION. The Token Encoder: ENC.HDR, ENC.NORMAL, ENC.BOUNDARY, PACK (41_token_encoder.md). -/

namespace Sys2Proof.Machine

/-- ENC.HDR (R142): `MemWrite(DST, 0, 4, N); wp <- 4`. -/
def execEncHdr (s : State) : Host.Outcome State Fault Refusal :=
  s.needDst Config.headerBytes
    (.next ((s.setDst (s.dst.memWrite 0 Config.headerBytes s.work.N)).setWork
      { s.work with wp := Config.headerBytes }))

/-- The writes of an emission mode: the token's fields and the advance (R145, R146). -/
def Working.emitted (w : Working) (tlen : Len) (l : Byte) (adv : Nat) : Working :=
  { w with tdist := w.mdist, tlen := tlen, lit := l, adv := adv }

/-- ENC.NORMAL (R145): `tdist <- mdist; tlen <- mlen; lit <- SRC[p + mlen]; adv <- mlen + 1`. -/
def execEncNormal (s : State) : Host.Outcome State Fault Refusal :=
  if normalMode s.work then
    s.needSrc (normalLiteral s.work + 1)
      (.next (s.setWork
        (s.work.emitted s.work.mlen (s.src.read (normalLiteral s.work)) (s.work.mlen.toNat + 1))))
  else .refused .emissionModeMismatch

/-- ENC.BOUNDARY (R146): `tdist <- mdist; tlen <- mlen - 1; lit <- SRC[p + mlen - 1]; adv <- mlen`. -/
def execEncBoundary (s : State) : Host.Outcome State Fault Refusal :=
  if boundaryMode s.work then
    s.needSrc (boundaryLiteral s.work + 1)
      (.next (s.setWork
        (s.work.emitted (s.work.mlen - 1) (s.src.read (boundaryLiteral s.work)) s.work.mlen.toNat)))
  else .refused .emissionModeMismatch

/-- DST after PACK: `MemWrite(DST, wp, 2, word); MemWrite(DST, wp + 2, 1, lit)` (R147). -/
def packDst (m : Memory) (w : Working) : Memory :=
  (m.memWrite w.wp 2 (packWord w.tdist w.tlen).toNat).memWrite (w.wp + 2) 1 w.lit.toNat

/-- PACK's registers: `word <- (tdist << 4) | tlen; wp <- wp + 3` (R147). -/
def Working.packed (w : Working) : Working :=
  { w with word := packWord w.tdist w.tlen, wp := w.wp + Config.tokenBytes }

/-- PACK and emit (R147): `word <- (tdist << 4) | tlen; MemWrite(DST, wp, 2, word); MemWrite(DST, wp + 2, 1, lit);
wp <- wp + 3`. -/
def execPack (s : State) : Host.Outcome State Fault Refusal :=
  s.needDst (s.work.wp + Config.tokenBytes)
    (.next ((s.setDst (packDst s.dst s.work)).setWork s.work.packed))

end Sys2Proof.Machine
end

