-- ==== Sys2Proof/Machine/MatchFinder.lean ====
section
/-! DEFINITION. The Match Finder: MF.SEARCH (40_match_finder.md R129). -/

namespace Sys2Proof.Machine

/-- Growth of one candidate (R122): "if `len < 15` and `p + len < N` and `SRC[p − d + len] = SRC[p + len]` then
`len <- len + 1`, else stop", the tests in that order. `fuel` is `15 - len`, so running out of it is the first test
failing. -/
def grow (src : Memory) (n p d : Nat) : (fuel : Nat) → (len : Nat) → Nat
  | 0, len => len
  | fuel + 1, len =>
    if p + len < n then
      if src.read (p - d + len) = src.read (p + len) then grow src n p d fuel (len + 1) else len
    else len

/-- `L(d)`: the length candidate `d` reaches (R122). -/
def candidateLen (src : Memory) (n p d : Nat) : Nat := grow src n p d Config.maxLen 0

/-- MF.SEARCH's own registers during a search (R120). -/
structure Search where
  bd : Nat
  bl : Nat
  d : Nat
  len : Nat
  deriving DecidableEq, Repr

/-- The registers at the start of a search: `bd <- 0; bl <- 0` (R120), `d` at the first candidate (log 11). -/
def Search.start : Search where
  bd := 0
  bl := 0
  d := 1
  len := 0

/-- Try candidate `d`: grow it, then keep it if it is strictly longer (R125). -/
def Search.try (src : Memory) (n p d : Nat) (r : Search) : Search :=
  if r.bl < candidateLen src n p d then
    { bd := d, bl := candidateLen src n p d, d := d, len := candidateLen src n p d }
  else
    { r with d := d, len := candidateLen src n p d }

/-- The `for` loop of R129 over the `k` candidates from `d` on, with the early exit when `bl = 15` (R126). -/
def searchFrom (src : Memory) (n p : Nat) : (k : Nat) → (d : Nat) → Search → Search
  | 0, _, r => r
  | k + 1, d, r =>
    if (r.try src n p d).bl = Config.maxLen then r.try src n p d
    else searchFrom src n p k (d + 1) (r.try src n p d)

/-- The number of candidates: `min(4095, p)` (R121). -/
def candidates (p : Nat) : Nat := min Config.window p

/-- The whole search (R129). -/
def search (src : Memory) (n p : Nat) : Search := searchFrom src n p (candidates p) 1 Search.start

/-- MF.SEARCH's writes: "it writes only its own working registers `bd`, `bl`, `d`, `len`" (R120), and its result
(R127). -/
def Working.searched (w : Working) (r : Search) : Working :=
  { w with
    bd := BitVec.ofNat 12 r.bd, bl := BitVec.ofNat 4 r.bl, d := BitVec.ofNat 12 r.d, len := BitVec.ofNat 4 r.len,
    mdist := BitVec.ofNat 12 r.bd, mlen := BitVec.ofNat 4 r.bl }

/-- MF.SEARCH (R129): search at `p`, below `N`. -/
def execMfSearch (s : State) : Host.Outcome State Fault Refusal :=
  s.needSrc s.work.N (.next (s.setWork (s.work.searched (search s.src s.work.N s.work.p))))

end Sys2Proof.Machine
end

