-- ==== Sys2Proof/Machine/Dispatch.lean ====
section
/-! DEFINITION. The dispatch: one arm per constructor of Instr. -/

namespace Sys2Proof.Machine

def exec (i : Instr) (s : State) : Host.Outcome State Fault Refusal :=
  match i with
  | .compress => Sys2Proof.Machine.execCompress s
  | .decompress => Sys2Proof.Machine.execDecompress s
  | .cmdReserved0 => Sys2Proof.Machine.execCmdReserved0 s
  | .cmdReserved3 => Sys2Proof.Machine.execCmdReserved3 s
  | .hdr n => Sys2Proof.Machine.execHdr n s
  | .lit l => Sys2Proof.Machine.execLit l s
  | .litx tlen l => Sys2Proof.Machine.execLitx tlen l s
  | .copy0 tdist l => Sys2Proof.Machine.execCopy0 tdist l s
  | .copy tdist tlen l => Sys2Proof.Machine.execCopy tdist tlen l s
  | .mfSearch => Sys2Proof.Machine.execMfSearch s
  | .encHdr => Sys2Proof.Machine.execEncHdr s
  | .encNormal => Sys2Proof.Machine.execEncNormal s
  | .encBoundary => Sys2Proof.Machine.execEncBoundary s
  | .pack => Sys2Proof.Machine.execPack s
  | .unpack b0 b1 b2 => Sys2Proof.Machine.execUnpack b0 b1 b2 s

end Sys2Proof.Machine
end

