-- ==== Sys2Proof/Machine/Sequencer.lean ====
section
/-! DEFINITION. The sequencer: one step of the running job, at the granularity of 43_host_commands.md R193 ("the start,
one header step, then zero or more token steps, then the end"). The step that is due is read off the job's own
pointers: `wp` and `rp` are 0 until the header step and at least 4 after it (R32, R33; log 10). -/

namespace Sys2Proof.Machine

/-! ## COMPRESS (41_token_encoder.md R153) -/

/-- `p <- p + adv` (R148). -/
def State.advanced (s : State) : State := s.setWork { s.work with p := s.work.p + s.work.adv }

/-- The emission of the mode R144 chooses: "If `p + mlen < N` the step is in normal mode. Otherwise ... boundary mode". -/
def emissionOp (w : Working) : Instr := if normalMode w then .encNormal else .encBoundary

/-- One token step of COMPRESS (R143): MF.SEARCH, the emission, PACK, the advance. -/
def compressToken (s : State) : Host.Outcome State Fault Refusal :=
  andThen (exec .mfSearch s) fun s1 =>
    andThen (exec (emissionOp s1.work) s1) fun s2 =>
      andThen (exec .pack s2) fun s3 => .next s3.advanced

/-- One step of a COMPRESS job: header, token while `p < N`, or the end (R153). -/
def compressStep (s : State) : Host.Outcome State Fault Refusal :=
  if s.work.wp = 0 then exec .encHdr s
  else if s.work.p < s.work.N then compressToken s
  else .next (s.finished s.work.wp s.work.p)

/-! ## DECOMPRESS (42_token_decoder.md R179) -/

/-- A stream that ends too early: `MalformedStream(Truncated)` with the pointers as they are (R161, R163). -/
def truncatedStream (s : State) : Host.Outcome State Fault Refusal :=
  raise s (.malformedStream .truncated) s.work.cursor s.work.rp

/-- The instruction in `SRC[0..4)` (R161). -/
def fetchedHeader (s : State) : Instr := decodeHeader (s.src.read 0) (s.src.read 1) (s.src.read 2) (s.src.read 3)

/-- UNPACK of the three bytes at `rp` (R163, R164). -/
def fetchedUnpack (s : State) : Instr :=
  .unpack (s.src.read s.work.rp) (s.src.read (s.work.rp + 1)) (s.src.read (s.work.rp + 2))

/-- The instruction in the three bytes at `rp` (R163, R100). -/
def fetchedToken (s : State) : Instr :=
  decodeToken (s.src.read s.work.rp) (s.src.read (s.work.rp + 1)) (s.src.read (s.work.rp + 2))

/-- The header step (R161): the length check, before any byte is read, then HDR. -/
def headerStep (s : State) : Host.Outcome State Fault Refusal :=
  if s.srcLen.toNat < Config.headerBytes then truncatedStream s
  else s.needSrc Config.headerBytes (exec (fetchedHeader s) s)

/-- The token step (R162): the fetch check, before any byte is read; UNPACK; the token's class. -/
def decompressToken (s : State) : Host.Outcome State Fault Refusal :=
  if s.srcLen.toNat < fetchEnd s.work then truncatedStream s
  else s.needSrc (fetchEnd s.work) (andThen (exec (fetchedUnpack s) s) (exec (fetchedToken s)))

/-- One step of a DECOMPRESS job: header, token while `cursor < N`, or the end (R179). -/
def decompressStep (s : State) : Host.Outcome State Fault Refusal :=
  if s.work.rp = 0 then headerStep s
  else if s.work.cursor < s.work.N then decompressToken s
  else .next (s.finished s.work.cursor s.work.rp)

/-! ## The core's turn -/

/-- One step of the core: "In IDLE, DONE and FAULT the core simply does nothing" (60_exceptions.md R231). -/
def coreStep (s : State) : Host.Outcome State Fault Refusal :=
  match s.phase with
  | .idle => .next s
  | .done => .next s
  | .fault => .next s
  | .busy =>
    match s.op with
    | .compress => compressStep s
    | .decompress => decompressStep s
    | .none => .fault .busyWithoutJob

/-! ## A job whose next step fetches given bytes (log 16) -/

/-- A running DECOMPRESS job with working registers `w`, whose stream has `bytes` at `rp`. The core's turn comes
first. -/
def State.decoding (s : State) (w : Working) (bytes : List Byte) : State :=
  { s with
    phase := .busy, op := .decompress, cause := .none, work := w,
    srcLen := BitVec.ofNat 64 (max s.srcLen.toNat (w.rp + bytes.length)),
    src := s.src.writeBytes w.rp bytes, inputs := .core :: s.inputs }

/-- The bytes stand where a job that has read nothing fetches its header. -/
def State.dueHeader (s : State) (bytes : List Byte) : State := s.decoding { s.work with rp := 0 } bytes

/-- The bytes stand where a job that has read its header and has room for the longest token fetches the next one. -/
def State.dueToken (s : State) (bytes : List Byte) : State :=
  s.decoding
    { s.work with
      rp := if s.work.rp = 0 then Config.headerBytes else s.work.rp,
      N := if s.work.cursor < s.work.N then s.work.N else s.work.cursor + (Config.maxLen + 1) }
    bytes

end Sys2Proof.Machine
end

