-- ==== Sys2Proof/Machine/HostPort.lean ====
section
/-! DEFINITION. The moves of the environment (43_host_commands.md R196, 10_state.md R21 to R27, 70 R240). -/

namespace Sys2Proof.Machine

/-- A host access to a memory, which its duty forbids while BUSY (R196, R197 (c), log 7). -/
def hostMemory (s : State) (o : Host.Outcome State Fault Refusal) : Host.Outcome State Fault Refusal :=
  if s.phase = .busy then .refused .hostTouchesMemoryWhileBusy else o

/-- The host writes a cell of SRC. -/
def hostWriteSrc (a : Nat) (b : Byte) (s : State) : Host.Outcome State Fault Refusal :=
  hostMemory s (s.needSrc (a + 1) (.next (s.setSrc (s.src.write a b))))

/-- The host reads a cell of DST. -/
def hostReadDst (a : Nat) (s : State) : Host.Outcome State Fault Refusal :=
  hostMemory s (s.needDst (a + 1) (.next (s.setHostData ((s.dst.read a).setWidth 64))))

/-- The host writes SRC_LEN. While BUSY the write is ignored (R21, R196), or the host has no such move (20_memory.md
R74), as the parameter says (log 24). -/
def hostWriteSrcLen (v : Reg64) (s : State) : Host.Outcome State Fault Refusal :=
  if s.phase = .busy then
    match s.cfg.srcLenWhileBusy with
    | .ignored => .next s
    | .noMove => .refused .hostWritesSrcLenWhileBusy
  else .next (s.setSrcLen v)

/-- The instruction a value written to CMD is: "Only bits 1:0 of the written value are looked at" (R22). -/
def commandOf (v : Reg64) : Instr := decodeCommand (v.setWidth 8)

/-- The host reads a register; OUT_LEN and IN_POS while BUSY give a free value (U4, log 5), and so does SRC_LEN
(log 23). -/
def hostReadReg (r : Reg) (s : State) : Host.Outcome State Fault Refusal :=
  if s.readIsOpen r then .next ((s.setHostData (Config.freeBits 64 s.freeCount 0)).countFree)
  else .next (s.setHostData (s.regWord r))

/-- One move. -/
def inputStep (i : Input) (s : State) : Host.Outcome State Fault Refusal :=
  match i with
  | .core => coreStep s
  | .reset => .next s.afterReset
  | .writeSrc a b => hostWriteSrc a b s
  | .writeSrcLen v => hostWriteSrcLen v s
  | .writeCmd v => exec (commandOf v) s
  | .readReg r => hostReadReg r s
  | .readDst a => hostReadDst a s

end Sys2Proof.Machine
end

