-- ==== Sys2Proof/Machine/Step.lean ====
section
/-! DEFINITION. One step of the machine: the oldest move of the environment, or the core's turn when there is none. -/

namespace Sys2Proof.Machine

/-- One step. -/
def step (s : State) : Host.Outcome State Fault Refusal :=
  match s.inputs with
  | [] => coreStep s
  | i :: rest => inputStep i (s.setInputs rest)

/-- `s` with a table word placed where the next step takes its instruction from (log 16). A command is the next value
the host writes to CMD. A header stands in `SRC[0..4)` of a DECOMPRESS job that has read nothing (`rp = 0`). A token
stands at `rp` of a DECOMPRESS job that has read its header and has room for the longest token (`cursor < N`). -/
def State.withFetchWord (s : State) (nbits w : Nat) : State :=
  match tableFormat nbits with
  | none => s
  | some .command => s.setInputs (.writeCmd ((tableByte w 0).setWidth 64) :: s.inputs)
  | some .header => s.dueHeader (tableBytes .header w)
  | some .token => s.dueToken (tableBytes .token w)

end Sys2Proof.Machine
end

