-- ==== Sys2Proof/Safety.lean ====
section
/-! DEFINITION. What claims are stated in terms of: runs, the invariant of the machine (10_state.md R24, R25, R31, R33,
R37), and the words of the Match Finder's and the jobs' specifications. -/

namespace Sys2Proof.Machine

/-! ## Runs -/

/-- `k` steps, stopping at the first fault or refusal. -/
def run : Nat → State → Host.Outcome State Fault Refusal
  | 0, s => .next s
  | k + 1, s => andThen (step s) (run k)

/-- A machine that may be given a command (R190): no job runs, no move of the environment is pending. -/
structure Ready (s : State) : Prop where
  notBusy : s.phase ≠ .busy
  quiet : s.inputs = []

/-- The host writes `v` to CMD; then it is the core's turn for as long as the run goes on. -/
def State.withCommand (s : State) (v : Reg64) : State := s.setInputs [.writeCmd v]

/-! ## The invariant -/

/-- A running COMPRESS job (R33, R141): the input fits, and either nothing was emitted or `k` tokens were. -/
structure Encoding (s : State) : Prop where
  length : s.work.N = s.srcLen.toNat
  fits : s.work.N ≤ Config.nMax
  srcCells : s.srcHas s.work.N = true
  dstCells : s.dstHas (worstCaseOutput s.work.N) = true
  progress : (s.work.wp = 0 ∧ s.work.p = 0) ∨
    ∃ k, s.work.wp = 4 + 3 * k ∧ k ≤ s.work.p ∧ s.work.p ≤ 16 * k ∧ s.work.p ≤ s.work.N

/-- A running DECOMPRESS job (R33): either the header is still to be read or `k` tokens were executed. -/
structure Decoding (s : State) : Prop where
  srcCells : s.srcHas s.srcLen.toNat = true
  progress : (s.work.rp = 0 ∧ s.work.cursor = 0) ∨
    ∃ k, s.work.rp = 4 + 3 * k ∧ s.work.rp ≤ s.srcLen.toNat ∧ k ≤ s.work.cursor ∧ s.work.cursor ≤ 16 * k ∧
      s.work.cursor ≤ s.work.N ∧ s.work.N ≤ Config.nMax ∧ s.dstHas s.work.N = true

/-- The result of a COMPRESS job (R150): the output is a header and `T` tokens. -/
def Encoded (s : State) : Prop :=
  ∃ T, s.outLen.toNat = 4 + 3 * T ∧ T ≤ s.inPos.toNat ∧ s.inPos.toNat ≤ 16 * T ∧ s.inPos.toNat ≤ Config.nMax

/-- The result of a DECOMPRESS job: a header and `T` tokens were consumed. -/
def DecodedStream (s : State) : Prop :=
  ∃ T, s.inPos.toNat = 4 + 3 * T ∧ T ≤ s.outLen.toNat ∧ s.outLen.toNat ≤ 16 * T ∧ s.outLen.toNat ≤ Config.nMax

/-- The invariant every step keeps. -/
structure Inv (s : State) : Prop where
  /-- SRC is in canonical form. -/
  srcWf : s.src.wf
  /-- DST is in canonical form. -/
  dstWf : s.dst.wf
  /-- SRC holds nothing in a cell it does not have (R36). -/
  srcCells : ∀ a, s.src.read a ≠ Memory.fill → s.srcHas (a + 1) = true
  /-- DST holds nothing in a cell it does not have (R37, R65). -/
  dstCells : ∀ a, s.dst.read a ≠ Memory.fill → s.dstHas (a + 1) = true
  /-- "`CAUSE ≠ 0` exactly when `phase = FAULT`" (R25). -/
  cause : s.cause ≠ .none ↔ s.phase = .fault
  /-- `op` is "none (only before the first job after reset)" (R24). -/
  op : s.op = .none ↔ s.phase = .idle
  /-- OUT_LEN and IN_POS are 0 until a job ends (R26, R27, R40). -/
  cleared : s.phase = .idle ∨ s.phase = .busy → s.outLen = 0 ∧ s.inPos = 0
  /-- Only COMPRESS raises `InputTooLarge`, and it raises nothing else (R212, R225). -/
  raiser : s.phase = .fault → (s.cause = .inputTooLarge ↔ s.op = .compress)
  encoding : s.phase = .busy → s.op = .compress → Encoding s
  decoding : s.phase = .busy → s.op = .decompress → Decoding s
  encoded : s.phase = .done → s.op = .compress → Encoded s
  decoded : s.phase = .done → s.op = .decompress → DecodedStream s

/-! ## The Match Finder's specification (40_match_finder.md R128) -/

/-- `SRC[p − d + i] = SRC[p + i]` for all `0 ≤ i < l`. -/
def Matches (src : Memory) (p d l : Nat) : Prop := ∀ i, i < l → src.read (p - d + i) = src.read (p + i)

/-- `l` is `L(d)`: the greatest length up to `min(15, N − p)` at which candidate `d` matches (R128). -/
def IsCandidateLen (src : Memory) (n p d l : Nat) : Prop :=
  (l ≤ min 15 (n - p) ∧ Matches src p d l) ∧ ∀ k, k ≤ min 15 (n - p) → Matches src p d k → k ≤ l

/-! ## Pointers of a job -/

/-- The index of a job's next write to DST, its OUT_LEN when it ends: `wp` or `cursor` (R26, R63). -/
def State.outPointer (s : State) : Nat :=
  match s.op with
  | .compress => s.work.wp
  | .decompress => s.work.cursor
  | .none => 0

/-- How far into SRC a job has got, its IN_POS when it ends: `p` or `rp` (R27). -/
def State.inPointer (s : State) : Nat :=
  match s.op with
  | .compress => s.work.p
  | .decompress => s.work.rp
  | .none => 0

end Sys2Proof.Machine
end

