-- ==== Sys2Proof/Certificates/Slice0/Obligations.lean ====
section
/-! DEFINITION. The statements for the provers. A frame is an equation: the next state is the old one with the named
fields replaced, and DST is compared by reading each cell. -/

open Sys2Proof Sys2Proof.Machine

/-! ## Encoding -/

/-- R91 to R93, R98, R100: decoding what was encoded gives the instruction back, and leaves the bytes that follow. -/
def Obligations.DecodeOfEncodeIsTheInstruction : Prop :=
  ∀ (i : Instr) (f : Format) (rest : List Byte),
    i.wellFormed = true → i.format = some f → decode f (encode i ++ rest) = .ok i rest

/-- R96, R97: no token pattern and no header value is illegal; each decodes to one well-formed instruction, which
encodes to the same bytes. -/
def Obligations.EveryPatternDecodesAndReencodes : Prop :=
  (∀ (b0 b1 b2 : Byte) (rest : List Byte), ∃ i, decode .token (b0 :: b1 :: b2 :: rest) = .ok i rest ∧
    i.wellFormed = true ∧ i.format = some .token ∧ encode i = [b0, b1, b2]) ∧
  (∀ (b0 b1 b2 b3 : Byte) (rest : List Byte), ∃ i, decode .header (b0 :: b1 :: b2 :: b3 :: rest) = .ok i rest ∧
    i.wellFormed = true ∧ i.format = some .header ∧ encode i = [b0, b1, b2, b3])

/-- R95: PACK and UNPACK are inverse bijections between field triples and three-byte sequences, through field pairs and
words; the literal is the third byte as it is. -/
def Obligations.PackAndUnpackAreInverse : Prop :=
  (∀ (d : Dist) (n : Len),
    wordOfBytes (lowByte (packWord d n)) (highByte (packWord d n)) = packWord d n ∧
    distField (packWord d n) = d ∧ lenField (packWord d n) = n) ∧
  (∀ b0 b1 : Byte,
    packWord (distField (wordOfBytes b0 b1)) (lenField (wordOfBytes b0 b1)) = wordOfBytes b0 b1 ∧
    lowByte (wordOfBytes b0 b1) = b0 ∧ highByte (wordOfBytes b0 b1) = b1) ∧
  (∀ b0 b1 b2 : Byte,
    tokenBytes (distField (wordOfBytes b0 b1)) (lenField (wordOfBytes b0 b1)) b2 = [b0, b1, b2]) ∧
  (∀ (d d' : Dist) (n n' : Len) (l l' : Byte), tokenBytes d n l = tokenBytes d' n' l' → d = d' ∧ n = n' ∧ l = l')

/-- R109: the decoder's classes are those of the match-and-mask table, tried in its order, on the token's 24-bit value
(R92). -/
def Obligations.TokenClassesFollowTheMaskTable : Prop :=
  ∀ b0 b1 b2 : Byte,
    let T : BitVec 24 := BitVec.ofNat 24 (b0.toNat + 2 ^ 8 * b1.toNat + 2 ^ 16 * b2.toNat)
    ((∃ l, decodeToken b0 b1 b2 = .lit l) ↔ T &&& 0x00FFFF#24 = 0#24) ∧
    ((∃ n l, decodeToken b0 b1 b2 = .litx n l) ↔ T &&& 0x00FFFF#24 ≠ 0#24 ∧ T &&& 0x00FFF0#24 = 0#24) ∧
    ((∃ d l, decodeToken b0 b1 b2 = .copy0 d l) ↔
      T &&& 0x00FFFF#24 ≠ 0#24 ∧ T &&& 0x00FFF0#24 ≠ 0#24 ∧ T &&& 0x00000F#24 = 0#24) ∧
    ((∃ d n l, decodeToken b0 b1 b2 = .copy d n l) ↔
      T &&& 0x00FFFF#24 ≠ 0#24 ∧ T &&& 0x00FFF0#24 ≠ 0#24 ∧ T &&& 0x00000F#24 ≠ 0#24)

/-- R98: the command code is the value of bits 1:0 of a host write to CMD. -/
def Obligations.CommandCodeIsTheTwoLowBits : Prop :=
  ∀ v : Reg64,
    (v.toNat % 4 = 0 → commandOf v = .cmdReserved0) ∧ (v.toNat % 4 = 1 → commandOf v = .compress) ∧
    (v.toNat % 4 = 2 → commandOf v = .decompress) ∧ (v.toNat % 4 = 3 → commandOf v = .cmdReserved3)

/-- A decoder refuses a byte sequence only because it ends before its format does (R96, R97, R99). The first clause is
the model's choice (log 22): the spec's format C is a 2-bit code, which the model reads from one byte. -/
def Obligations.DecodeRefusesOnlyShortInput : Prop :=
  ∀ bs : List Byte,
    ((∃ e, decode .command bs = .error e) ↔ bs = []) ∧
    ((∃ e, decode .header bs = .error e) ↔ bs.length < 4) ∧
    ((∃ e, decode .token bs = .error e) ↔ bs.length < 3)

/-- Words written out from R91, R92, R98 and the vectors of 95_test_vectors.md B1, with the classes of R100, decode to the instructions they stand for. -/
def Obligations.SampleWordsDecode : Prop :=
  decode .command [0x01#8] = .ok .compress [] ∧
  decode .command [0x02#8] = .ok .decompress [] ∧
  decode .header [0x78#8, 0x56#8, 0x34#8, 0x12#8] = .ok (.hdr 0x12345678#32) [] ∧
  decode .token [0x00#8, 0x00#8, 0x41#8] = .ok (.lit 0x41#8) [] ∧
  decode .token [0x0F#8, 0x00#8, 0x41#8] = .ok (.litx 15#4 0x41#8) [] ∧
  decode .token [0x00#8, 0x01#8, 0x00#8] = .ok (.copy0 16#12 0x00#8) [] ∧
  decode .token [0x34#8, 0x12#8, 0x56#8] = .ok (.copy 0x123#12 4#4 0x56#8) []

/-! ## Commands -/

/-- R41, R140, R190: outside BUSY, and with an input that fits, COMPRESS starts its job: the report registers cleared,
phase BUSY, `op`, `N <- SRC_LEN`, `p` and `wp` 0, nothing else changed. -/
def Obligations.CompressStartsItsJob : Prop :=
  ∀ s : State, s.phase ≠ .busy → s.srcHas s.srcLen.toNat = true → s.srcLen.toNat ≤ 4294967295 →
    s.dstHas (4 + 3 * s.srcLen.toNat) = true →
    exec .compress s = .next
      { s with cause := .none, outLen := 0, inPos := 0, phase := .busy, op := .compress,
               work := { s.work with N := s.srcLen.toNat, p := 0, wp := 0 } }

/-- R41, R160, R190: outside BUSY, DECOMPRESS starts its job with `cursor` and `rp` 0, nothing else changed. -/
def Obligations.DecompressStartsItsJob : Prop :=
  ∀ s : State, s.phase ≠ .busy → s.srcHas s.srcLen.toNat = true →
    exec .decompress s = .next
      { s with cause := .none, outLen := 0, inPos := 0, phase := .busy, op := .decompress,
               work := { s.work with cursor := 0, rp := 0 } }

/-- R141, R212: an input longer than the header can state, or whose worst case does not fit a finite DST_CAP, raises
`InputTooLarge` at the start: CAUSE 2, OUT_LEN and IN_POS 0, phase FAULT, nothing written to DST. -/
def Obligations.CompressRaisesInputTooLarge : Prop :=
  ∀ s : State, s.phase ≠ .busy → s.srcHas s.srcLen.toNat = true →
    (4294967295 < s.srcLen.toNat ∨ s.dstHas (4 + 3 * s.srcLen.toNat) = false) →
    exec .compress s = .next
      { s with cause := .inputTooLarge, outLen := 0, inPos := 0, phase := .fault, op := .compress }

/-- R22, R190: a reserved code at any time, and any command while BUSY, changes no state at all. -/
def Obligations.CommandsWithoutEffect : Prop :=
  ∀ s : State, exec .cmdReserved0 s = .next s ∧ exec .cmdReserved3 s = .next s ∧
    (s.phase = .busy → exec .compress s = .next s ∧ exec .decompress s = .next s)

/-- The model's choice (log 8; R84, U10): a job with SRC_LEN > SRC_CAP is refused by name. -/
def Obligations.JobBeyondSrcCapIsRefused : Prop :=
  ∀ s : State, s.phase ≠ .busy → s.srcHas s.srcLen.toNat = false →
    exec .compress s = .refused .srcLenBeyondCapacity ∧ exec .decompress s = .refused .srcLenBeyondCapacity

/-! ## The Token Decoder -/

/-- R161: HDR sets `N` and `rp <- 4` and changes nothing else, where DST has room for `N` bytes. -/
def Obligations.HdrSetsTheLength : Prop :=
  ∀ (s : State) (n : HeaderWord), s.dstHas n.toNat = true →
    exec (.hdr n) s = .next { s with work := { s.work with N := n.toNat, rp := 4 } }

/-- R161, R213: where a finite DST_CAP is below `N`, HDR raises `OutputTooLarge` with OUT_LEN = `cursor` and
IN_POS = 4. -/
def Obligations.HdrRaisesOutputTooLarge : Prop :=
  ∀ (s : State) (n : HeaderWord), s.dstHas n.toNat = false →
    exec (.hdr n) s = .next
      { s with work := { s.work with N := n.toNat, rp := 4 }, cause := .outputTooLarge,
               outLen := BitVec.ofNat 64 s.work.cursor, inPos := 4, phase := .fault }

/-- R164, R94: UNPACK completes in every state; `word = b0 + 256*b1`, `tdist = word >> 4`, `tlen = word & 0xF`,
`lit = b2`, nothing else changed; and bytes `FE FF 21` give 0xFFFE, 4095, 14, 0x21. -/
def Obligations.UnpackSplitsTheWord : Prop :=
  (∀ (s : State) (b0 b1 b2 : Byte), ∃ t, exec (.unpack b0 b1 b2) s = .next t ∧
    t.work.word.toNat = b0.toNat + 256 * b1.toNat ∧
    t.work.tdist.toNat = (b0.toNat + 256 * b1.toNat) / 16 ∧
    t.work.tlen.toNat = (b0.toNat + 256 * b1.toNat) % 16 ∧
    t.work.lit = b2 ∧
    t = { s with work := { s.work with
            word := t.work.word, tdist := t.work.tdist, tlen := t.work.tlen, lit := t.work.lit } }) ∧
  (∀ s : State, ∃ t, exec (.unpack 0xFE#8 0xFF#8 0x21#8) s = .next t ∧ t.work.word = 0xFFFE#16 ∧
    t.work.tdist = 4095#12 ∧ t.work.tlen = 14#4 ∧ t.work.lit = 0x21#8)

/-- R173, R176, R177: LIT, LITX (its `tlen` ignored) and COPY0 (with `tdist ≤ cursor`) append the literal at `cursor`
and move the pointers by 1 and 3; every other cell of DST and every other field is unchanged but the copy's index `i`,
which the spec calls written at the start of each back-copy (R41). -/
def Obligations.LiteralTokensAppendOneByte : Prop :=
  ∀ (s : State) (i : Instr) (d : Dist) (n : Len) (l : Byte),
    (i = .lit l ∨ i = .litx n l ∨ (i = .copy0 d l ∧ d.toNat ≤ s.work.cursor)) →
    s.work.cursor < s.work.N → s.dstHas (s.work.cursor + 1) = true →
    ∃ t, exec i s = .next t ∧ t.dst.read s.work.cursor = l ∧
      (∀ a, a ≠ s.work.cursor → t.dst.read a = s.dst.read a) ∧
      t = { s with dst := t.dst, work := { s.work with
              cursor := s.work.cursor + 1, rp := s.work.rp + 3, i := t.work.i } }

/-- R174, R169, R170, R178: COPY repeats the last `tdist` bytes of the output cyclically over `tlen` cells, appends the
literal after them, and moves the pointers by `tlen + 1` and 3; cells outside `DST[cursor .. cursor + tlen]` and every
other field but `i` are unchanged. -/
def Obligations.CopyRepeatsTheLastBytes : Prop :=
  ∀ (s : State) (d : Dist) (n : Len) (l : Byte),
    1 ≤ d.toNat → 1 ≤ n.toNat → d.toNat ≤ s.work.cursor → s.work.cursor + n.toNat + 1 ≤ s.work.N →
    s.dstHas (s.work.cursor + n.toNat + 1) = true →
    ∃ t, exec (.copy d n l) s = .next t ∧
      (∀ i, i < n.toNat →
        t.dst.read (copyTarget s.work.cursor i) = s.dst.read (s.work.cursor - d.toNat + i % d.toNat)) ∧
      t.dst.read (literalIndex s.work.cursor d n) = l ∧
      (∀ a, (a < s.work.cursor ∨ s.work.cursor + n.toNat < a) → t.dst.read a = s.dst.read a) ∧
      t = { s with dst := t.dst, work := { s.work with
              cursor := s.work.cursor + n.toNat + 1, rp := s.work.rp + 3, i := t.work.i } }

/-- R167, R166: a token with `tdist > cursor` raises `BackRefBeforeStart`, whatever its length and even where the
overrun test would hold too; nothing but the report registers and the phase changes. -/
def Obligations.BackReferenceBeforeStartRaises : Prop :=
  ∀ (s : State) (d : Dist) (n : Len) (l : Byte) (i : Instr), (i = .copy d n l ∨ i = .copy0 d l) →
    s.work.cursor < d.toNat →
    exec i s = .next
      { s with cause := .malformedStream .backRefBeforeStart, outLen := BitVec.ofNat 64 s.work.cursor,
               inPos := BitVec.ofNat 64 s.work.rp, phase := .fault }

/-- R168: a token that passes the distance check and whose copy leaves no room for its literal below `N` (in the form
that cannot overflow: `N - cursor ≤ tlen`) raises `Overrun`; nothing but the report registers and the phase changes. -/
def Obligations.OverrunRaises : Prop :=
  ∀ (s : State) (d : Dist) (n : Len) (l : Byte),
    1 ≤ d.toNat → d.toNat ≤ s.work.cursor → s.work.N - s.work.cursor ≤ n.toNat →
    exec (.copy d n l) s = .next
      { s with cause := .malformedStream .overrun, outLen := BitVec.ofNat 64 s.work.cursor,
               inPos := BitVec.ofNat 64 s.work.rp, phase := .fault }

/-- R161, R163: a stream shorter than its header, or one that ends before the token that is due, raises `Truncated`
before any byte of it is used. -/
def Obligations.TruncatedStreamRaises : Prop :=
  ∀ s : State, s.inputs = [] → s.phase = .busy → s.op = .decompress →
    ((s.work.rp = 0 ∧ s.srcLen.toNat < 4) ∨
      (s.work.rp ≠ 0 ∧ s.work.cursor < s.work.N ∧ s.srcLen.toNat < s.work.rp + 3)) →
    step s = .next
      { s with cause := .malformedStream .truncated, outLen := BitVec.ofNat 64 s.work.cursor,
               inPos := BitVec.ofNat 64 s.work.rp, phase := .fault }

/-! ## The Match Finder and the Token Encoder -/

/-- R128: MF.SEARCH completes for every `p < N` and finds the greatest `L(d)` over the candidates
`1 ≤ d ≤ min(4095, p)` at the least such `d`, or (0, 0); it changes only `bd`, `bl`, `d`, `len` and its result. -/
def Obligations.SearchFindsTheLongestNearestMatch : Prop :=
  ∀ s : State, s.work.p < s.work.N → s.srcHas s.work.N = true →
    ∃ t, exec .mfSearch s = .next t ∧
      (∀ d l, 1 ≤ d → d ≤ min 4095 s.work.p → IsCandidateLen s.src s.work.N s.work.p d l →
        l ≤ t.work.mlen.toNat) ∧
      (1 ≤ t.work.mlen.toNat →
        1 ≤ t.work.mdist.toNat ∧ t.work.mdist.toNat ≤ min 4095 s.work.p ∧
        IsCandidateLen s.src s.work.N s.work.p t.work.mdist.toNat t.work.mlen.toNat ∧
        ∀ d, 1 ≤ d → d < t.work.mdist.toNat → ¬ IsCandidateLen s.src s.work.N s.work.p d t.work.mlen.toNat) ∧
      (t.work.mlen.toNat = 0 → t.work.mdist.toNat = 0) ∧
      t = { s with work := { s.work with
              bd := t.work.bd, bl := t.work.bl, d := t.work.d, len := t.work.len,
              mdist := t.work.mdist, mlen := t.work.mlen } }

/-- R142, R91: ENC.HDR writes `N` little-endian to `DST[0..4)` and sets `wp <- 4`, nothing else; read as a header the
bytes give `N` back. -/
def Obligations.EncHdrWritesTheLength : Prop :=
  ∀ s : State, s.dstHas 4 = true → s.work.N ≤ 4294967295 →
    ∃ t, exec .encHdr s = .next t ∧
      (∀ k, k < 4 → (t.dst.read k).toNat = s.work.N / 256 ^ k % 256) ∧
      (headerOfBytes (t.dst.read 0) (t.dst.read 1) (t.dst.read 2) (t.dst.read 3)).toNat = s.work.N ∧
      (∀ a, 4 ≤ a → t.dst.read a = s.dst.read a) ∧
      t = { s with dst := t.dst, work := { s.work with wp := 4 } }

/-- R145: ENC.NORMAL, where `p + mlen < N`. -/
def Obligations.EncNormalEmitsMatchAndNextByte : Prop :=
  ∀ s : State, s.work.p + s.work.mlen.toNat < s.work.N → s.srcHas (s.work.p + s.work.mlen.toNat + 1) = true →
    exec .encNormal s = .next
      { s with work := { s.work with
          tdist := s.work.mdist, tlen := s.work.mlen, lit := s.src.read (s.work.p + s.work.mlen.toNat),
          adv := s.work.mlen.toNat + 1 } }

/-- R146: ENC.BOUNDARY, where `mlen ≥ 1` and `p + mlen = N`: the literal is the last byte of the input. -/
def Obligations.EncBoundaryGivesUpTheLastByte : Prop :=
  ∀ s : State, 1 ≤ s.work.mlen.toNat → s.work.p + s.work.mlen.toNat = s.work.N → s.srcHas s.work.N = true →
    ∃ t, exec .encBoundary s = .next t ∧ t.work.tlen.toNat = s.work.mlen.toNat - 1 ∧
      t = { s with work := { s.work with
              tdist := s.work.mdist, tlen := t.work.tlen, lit := s.src.read (s.work.N - 1),
              adv := s.work.mlen.toNat } }

/-- The model's choice (log 14): an emission mode run outside its own condition (R144 to R146, U1) is refused by name,
so `SRC[N]` is never read. -/
def Obligations.EmissionModesKeepToTheirCondition : Prop :=
  ∀ s : State,
    (s.work.N ≤ s.work.p + s.work.mlen.toNat → exec .encNormal s = .refused .emissionModeMismatch) ∧
    ((s.work.mlen.toNat = 0 ∨ s.work.p + s.work.mlen.toNat ≠ s.work.N) →
      exec .encBoundary s = .refused .emissionModeMismatch)

/-- R93, R147: PACK appends the token's three bytes at `wp`: the word `16*tdist + tlen`, low byte first, then the
literal; `wp <- wp + 3`; nothing else changes, and the bytes decode to the token packed. -/
def Obligations.PackAppendsTheToken : Prop :=
  ∀ s : State, s.dstHas (s.work.wp + 3) = true →
    ∃ t, exec .pack s = .next t ∧
      t.work.word.toNat = 16 * s.work.tdist.toNat + s.work.tlen.toNat ∧
      (t.dst.read s.work.wp).toNat = t.work.word.toNat % 256 ∧
      (t.dst.read (s.work.wp + 1)).toNat = t.work.word.toNat / 256 ∧
      t.dst.read (s.work.wp + 2) = s.work.lit ∧
      decodeToken (t.dst.read s.work.wp) (t.dst.read (s.work.wp + 1)) (t.dst.read (s.work.wp + 2)) =
        classify s.work.tdist s.work.tlen s.work.lit ∧
      (∀ a, (a < s.work.wp ∨ s.work.wp + 3 ≤ a) → t.dst.read a = s.dst.read a) ∧
      t = { s with dst := t.dst, work := { s.work with word := t.work.word, wp := s.work.wp + 3 } }

/-- R148, R151: the token a COMPRESS step emits at `p`. (a) `tdist ≤ p`; (b) `tdist = 0` only with `tlen = 0`;
(c) in boundary mode `tlen ≤ 14` and `p + tlen = N - 1`; (d) it stands for `SRC[p .. p + adv)`: the copied bytes equal
those `tdist` back and the literal is the byte after them. The advance is `mlen + 1` or `mlen`, from 1 to 16, equals the
token's span, and never passes `N`. -/
def Obligations.EmittedTokenDescribesTheInput : Prop :=
  ∀ s : State, s.inputs = [] → s.phase = .busy → s.op = .compress → s.work.wp ≠ 0 → s.work.p < s.work.N →
    s.srcHas s.work.N = true → s.dstHas (s.work.wp + 3) = true →
    ∃ t, step s = .next t ∧
      t.work.tdist.toNat ≤ s.work.p ∧
      (t.work.tdist = 0 → t.work.tlen = 0) ∧
      (∀ i, i < t.work.tlen.toNat →
        s.src.read (s.work.p + i) = s.src.read (s.work.p - t.work.tdist.toNat + i)) ∧
      t.work.lit = s.src.read (s.work.p + t.work.tlen.toNat) ∧
      (s.work.p + t.work.mlen.toNat < s.work.N →
        t.work.tlen = t.work.mlen ∧ t.work.adv = t.work.mlen.toNat + 1) ∧
      (s.work.N ≤ s.work.p + t.work.mlen.toNat →
        t.work.tlen.toNat + 1 = t.work.mlen.toNat ∧ t.work.tlen.toNat ≤ 14 ∧ t.work.adv = t.work.mlen.toNat ∧
        s.work.p + t.work.tlen.toNat = s.work.N - 1) ∧
      t.work.adv = span t.work.tdist t.work.tlen ∧ 1 ≤ t.work.adv ∧ t.work.adv ≤ 16 ∧
      t.work.p = s.work.p + t.work.adv ∧ t.work.p ≤ s.work.N ∧ t.work.wp = s.work.wp + 3 ∧
      decodeToken (t.dst.read s.work.wp) (t.dst.read (s.work.wp + 1)) (t.dst.read (s.work.wp + 2)) =
        classify t.work.tdist t.work.tlen t.work.lit

/-! ## One step -/

/-- R162, R163: when a DECOMPRESS job is due a token and its three bytes exist, the step is UNPACK of the bytes at `rp`
and then the meaning of the instruction they decode to. -/
def Obligations.StepRunsTheDecodedToken : Prop :=
  ∀ (s : State) (i : Instr) (rest : List Byte),
    s.inputs = [] → s.phase = .busy → s.op = .decompress → s.work.rp ≠ 0 → s.work.cursor < s.work.N →
    s.work.rp + 3 ≤ s.srcLen.toNat → s.srcHas (s.work.rp + 3) = true →
    decode .token (s.src.readBytes s.work.rp 3) = .ok i rest →
    ∃ u, exec (.unpack (s.src.read s.work.rp) (s.src.read (s.work.rp + 1)) (s.src.read (s.work.rp + 2))) s = .next u ∧
      step s = exec i u

/-- R161: when a DECOMPRESS job is due its header and its four bytes exist, the step is the meaning of the instruction
they decode to. -/
def Obligations.StepRunsTheDecodedHeader : Prop :=
  ∀ (s : State) (i : Instr) (rest : List Byte),
    s.inputs = [] → s.phase = .busy → s.op = .decompress → s.work.rp = 0 → 4 ≤ s.srcLen.toNat →
    s.srcHas 4 = true → decode .header (s.src.readBytes 0 4) = .ok i rest → step s = exec i s

/-- R22, R190: when the host's next move is a write of CMD, the step is the meaning of the command its low byte decodes
to, with the move taken off the list. -/
def Obligations.StepRunsTheCommandWritten : Prop :=
  ∀ (s : State) (v : Reg64) (l : List Input) (i : Instr) (rest : List Byte),
    s.inputs = .writeCmd v :: l → decode .command [v.setWidth 8] = .ok i rest →
    step s = exec i { s with inputs := l }

/-- R153, R143: the steps of a COMPRESS job: ENC.HDR while `wp = 0`; then, while `p < N`, MF.SEARCH, the emission the
branch `p + mlen < N` selects, PACK, and `p <- p + adv`. -/
def Obligations.StepRunsTheEncoder : Prop :=
  ∀ s : State, s.inputs = [] → s.phase = .busy → s.op = .compress →
    (s.work.wp = 0 → step s = exec .encHdr s) ∧
    (∀ s1 s2 s3, s.work.wp ≠ 0 → s.work.p < s.work.N → exec .mfSearch s = .next s1 →
      exec (if s1.work.p + s1.work.mlen.toNat < s1.work.N then .encNormal else .encBoundary) s1 = .next s2 →
      exec .pack s2 = .next s3 →
      step s = .next { s3 with work := { s3.work with p := s3.work.p + s3.work.adv } })

/-- R195, R149, R172: the end of a job: OUT_LEN and IN_POS take the job's pointers, phase DONE, nothing else changes. -/
def Obligations.JobEndsNormally : Prop :=
  ∀ s : State, s.inputs = [] → s.phase = .busy →
    (s.op = .compress → s.work.wp ≠ 0 → s.work.N ≤ s.work.p →
      step s = .next { s with outLen := BitVec.ofNat 64 s.work.wp, inPos := BitVec.ofNat 64 s.work.p, phase := .done }) ∧
    (s.op = .decompress → s.work.rp ≠ 0 → s.work.N ≤ s.work.cursor →
      step s = .next
        { s with outLen := BitVec.ofNat 64 s.work.cursor, inPos := BitVec.ofNat 64 s.work.rp, phase := .done })

/-- The model's moves (log 6): a move `core` at the head of the environment's list is one turn of the core, which takes
that move off the list; and the turn is the one it would be with no move pending, the rest of the list carried along, so
that the statements about a step with no move pending hold of it. -/
def Obligations.CoreMoveIsACoreTurn : Prop :=
  ∀ (s : State) (l : List Input), s.inputs = .core :: l →
    step s = coreStep { s with inputs := l } ∧
    (∀ t, step { s with inputs := [] } = .next t → step s = .next { t with inputs := l }) ∧
    (∀ r, step { s with inputs := [] } = .fault r → step s = .fault r) ∧
    (∀ r, step { s with inputs := [] } = .refused r → step s = .refused r)

/-- R195, R231: in IDLE, DONE and FAULT the core does nothing. -/
def Obligations.CoreIsStillOutsideBusy : Prop :=
  ∀ s : State, s.inputs = [] → s.phase ≠ .busy → step s = .next s

/-! ## The whole machine -/

/-- The state after reset meets the invariant. -/
def Obligations.ResetMeetsTheInvariant : Prop := Inv State.reset

/-- R24, R25, R31, R33, R37: every step, of the core or of the environment, keeps the invariant. -/
def Obligations.StepKeepsTheInvariant : Prop :=
  ∀ s t : State, Inv s → step s = .next t → Inv t

/-- R225: under the invariant the core's turn never stops with a fault or a refusal. The stops it excludes are the
model's own (log 9, log 14, log 19); which cells a turn's result depends on is `CoreTurnReadsOnlyItsInput`. -/
def Obligations.CoreTurnNeverStops : Prop :=
  ∀ s : State, Inv s → s.inputs = [] → ∃ t, step s = .next t

/-- R62, R64, R81: what the core's turn reads. Under the invariant its outcome does not depend on any cell of SRC at or
above SRC_LEN, nor on any cell of DST at or above the job's output pointer: with other bytes there it goes to the same
state but for those bytes, and the output so far is the same. -/
def Obligations.CoreTurnReadsOnlyItsInput : Prop :=
  ∀ (s t : State) (m m' : Memory), Inv s → coreStep s = .next t →
    (∀ a, a < s.srcLen.toNat → m.read a = s.src.read a) → (∀ a, a < s.outPointer → m'.read a = s.dst.read a) →
    ∃ t', coreStep { s with src := m, dst := m' } = .next t' ∧ t' = { t with src := m, dst := t'.dst } ∧
      ∀ a, a < t.outPointer → t'.dst.read a = t.dst.read a

/-- R149, R150, R191, R223, R260: a COMPRESS job whose header is still to be written ends in DONE within `N + 2` steps,
with IN_POS = SRC_LEN and OUT_LEN = 4 + 3T for a T from ceil(N/16) to N. -/
def Obligations.CompressEndsDone : Prop :=
  ∀ s : State, Inv s → s.inputs = [] → s.phase = .busy → s.op = .compress → s.work.wp = 0 →
    ∃ k t, k ≤ s.work.N + 2 ∧ run k s = .next t ∧ t.phase = .done ∧ t.cause = .none ∧ t.inPos = s.srcLen ∧
      ∃ T, s.work.N ≤ 16 * T ∧ T ≤ s.work.N ∧ t.outLen.toNat = 4 + 3 * T

/-- R172, R192, R260: a DECOMPRESS job whose header is still to be read ends, in DONE with OUT_LEN = the header's value
or in FAULT, within two steps more than the least of the header's value and the number of whole tokens in the stream. -/
def Obligations.DecompressEnds : Prop :=
  ∀ s : State, Inv s → s.inputs = [] → s.phase = .busy → s.op = .decompress → s.work.rp = 0 →
    ∃ k t, k ≤ min (headerOfBytes (s.src.read 0) (s.src.read 1) (s.src.read 2) (s.src.read 3)).toNat
        ((s.srcLen.toNat - 4) / 3) + 2 ∧
      run k s = .next t ∧
      ((t.phase = .done ∧
          t.outLen.toNat = (headerOfBytes (s.src.read 0) (s.src.read 1) (s.src.read 2) (s.src.read 3)).toNat) ∨
        t.phase = .fault)

/-- R152: the round trip. COMPRESS of the input in `s` ends in DONE; and for every machine `u` that has its output as
input and room for the result, DECOMPRESS ends in DONE, gives the input back byte for byte, and consumes exactly all of
the stream. -/
def Obligations.RoundTripRestoresTheInput : Prop :=
  ∀ s : State, Ready s → s.srcLen.toNat ≤ 4294967295 → s.srcHas s.srcLen.toNat = true →
    s.dstHas (4 + 3 * s.srcLen.toNat) = true →
    ∃ k t, run k (s.withCommand 1) = .next t ∧ t.phase = .done ∧ t.op = .compress ∧
      ∀ u : State, Ready u → u.srcLen = t.outLen → (∀ a, a < t.outLen.toNat → u.src.read a = t.dst.read a) →
        u.srcHas u.srcLen.toNat = true → u.dstHas s.srcLen.toNat = true →
        ∃ j v, run j (u.withCommand 2) = .next v ∧ v.phase = .done ∧ v.op = .decompress ∧
          v.outLen = s.srcLen ∧ v.inPos = u.srcLen ∧
          ∀ a, a < s.srcLen.toNat → v.dst.read a = s.src.read a

/-- R39, R62, R81, R256: nothing of an earlier job reaches a later one. Two machines that may be given a command and
agree on the parameters, on SRC_LEN and on `SRC[0..SRC_LEN)`, whatever their DST, their other SRC cells and their
working and report registers hold, run a job alike: the same phases, codes and report registers after every number of
steps, and at the end the same output. -/
def Obligations.JobDependsOnlyOnItsInput : Prop :=
  ∀ (s u : State) (v : Reg64) (k : Nat) (t : State), Ready s → Ready u → u.cfg = s.cfg → u.srcLen = s.srcLen →
    (∀ a, a < s.srcLen.toNat → u.src.read a = s.src.read a) →
    (commandOf v = .compress ∨ commandOf v = .decompress) →
    run (k + 1) (s.withCommand v) = .next t →
    ∃ t', run (k + 1) (u.withCommand v) = .next t' ∧ t'.phase = t.phase ∧ t'.op = t.op ∧ t'.cause = t.cause ∧
      t'.outLen = t.outLen ∧ t'.inPos = t.inPos ∧
      (t.phase ≠ .busy → ∀ a, a < t.outLen.toNat → t'.dst.read a = t.dst.read a)

/-- R23, R63, R80, R9: the core's turn never writes SRC, SRC_LEN, the job's `op`, the parameters or the environment's
fields. -/
def Obligations.CoreTurnLeavesItsInputAlone : Prop :=
  ∀ s t : State, coreStep s = .next t →
    t.src = s.src ∧ t.srcLen = s.srcLen ∧ t.op = s.op ∧ t.cfg = s.cfg ∧ t.inputs = s.inputs ∧
    t.hostData = s.hostData ∧ t.freeCount = s.freeCount

/-- R63: output is append-only. The job's output pointer never goes back, and a step writes only the cells between its
old and its new value. -/
def Obligations.OutputIsAppendOnly : Prop :=
  ∀ s t : State, coreStep s = .next t →
    s.outPointer ≤ t.outPointer ∧
    ∀ a, (a < s.outPointer ∨ t.outPointer ≤ a) → t.dst.read a = s.dst.read a

/-- R215, R161, R225: a condition raised by a step of a job is precise. The job is a DECOMPRESS; DST and `cursor` are as
before the step; OUT_LEN is `cursor` and IN_POS is `rp`, which has moved only where HDR had read the header before
`OutputTooLarge`. -/
def Obligations.ConditionsArePrecise : Prop :=
  ∀ s t : State, s.phase = .busy → coreStep s = .next t → t.phase = .fault →
    s.op = .decompress ∧ t.dst = s.dst ∧ t.work.cursor = s.work.cursor ∧
    t.outLen = BitVec.ofNat 64 s.work.cursor ∧ t.inPos = BitVec.ofNat 64 t.work.rp ∧
    ((t.cause = .outputTooLarge ∧ s.work.rp = 0 ∧ t.work.rp = 4) ∨
      ((∃ sub, t.cause = .malformedStream sub) ∧ t.work.rp = s.work.rp))

/-- R24, R25, R26, R27, R195, R221: STATUS, CAUSE, OUT_LEN and IN_POS change only by a transition: reset; a command
accepted outside BUSY, to BUSY or straight to FAULT; or a step of a running job, to DONE or FAULT. No other step writes
any of them. -/
def Obligations.ReportRegistersChangeOnlyByTransition : Prop :=
  ∀ s t : State, step s = .next t →
    (t.phase = s.phase ∧ t.op = s.op ∧ t.cause = s.cause ∧ t.outLen = s.outLen ∧ t.inPos = s.inPos) ∨
    (s.inputs.head? = some .reset ∧ t.phase = .idle) ∨
    ((∃ v, s.inputs.head? = some (.writeCmd v) ∧ (v.toNat % 4 = 1 ∨ v.toNat % 4 = 2)) ∧ s.phase ≠ .busy ∧
      (t.phase = .busy ∨ t.phase = .fault)) ∨
    ((s.inputs = [] ∨ s.inputs.head? = some .core) ∧ s.phase = .busy ∧ t.op = s.op ∧
      (t.phase = .done ∨ t.phase = .fault))

/-- R9 (log 1): no step changes the parameters. -/
def Obligations.ParametersNeverChange : Prop :=
  ∀ s t : State, step s = .next t → t.cfg = s.cfg

/-! ## The host -/

/-- R40, R240, R241: a reset input, in any phase, puts the host-visible registers at their reset values and writes
neither memory; the working registers it leaves are not stated (U5). -/
def Obligations.ResetInputResetsTheRegisters : Prop :=
  ∀ (s : State) (l : List Input), s.inputs = .reset :: l →
    ∃ t, step s = .next t ∧ t.phase = .idle ∧ t.op = .none ∧ t.cause = .none ∧ t.srcLen = 0 ∧ t.outLen = 0 ∧
      t.inPos = 0 ∧ t.statusWord = 0 ∧ t.causeWord = 0 ∧
      t.busyOut = false ∧ t.doneOut = false ∧ t.faultOut = false ∧
      t.src = s.src ∧ t.dst = s.dst ∧ t.cfg = s.cfg ∧ t.inputs = l ∧ t.hostData = s.hostData

/-- R24, R25: the register words. STATUS is phase + 4*op and CAUSE is cause + 16*sub, in numbers of the rules' tables;
the bits above are 0. -/
def Obligations.StatusAndCauseWords : Prop :=
  ∀ s : State,
    s.statusWord.toNat =
      (match s.phase with | .idle => 0 | .busy => 1 | .done => 2 | .fault => 3) +
      4 * (match s.op with | .none => 0 | .compress => 1 | .decompress => 2) ∧
    s.causeWord.toNat =
      (match s.cause with
        | .none => 0
        | .malformedStream .backRefBeforeStart => 0x11
        | .malformedStream .overrun => 0x21
        | .malformedStream .truncated => 0x31
        | .inputTooLarge => 2
        | .outputTooLarge => 3)

/-- R28: the outputs mirror the phase, so at most one is asserted, and none only in IDLE. -/
def Obligations.OutputsMirrorThePhase : Prop :=
  ∀ s : State,
    (s.busyOut = true ↔ s.phase = .busy) ∧ (s.doneOut = true ↔ s.phase = .done) ∧
    (s.faultOut = true ↔ s.phase = .fault) ∧
    ((s.busyOut = false ∧ s.doneOut = false ∧ s.faultOut = false) ↔ s.phase = .idle)

/-- R21, R22, R26, R27, R196, U4: a host read of a register changes only what the host is handed (and, where the value
is open, the model's own counter). CMD reads 0; STATUS and CAUSE read their values in every phase; SRC_LEN, OUT_LEN
and IN_POS read theirs outside BUSY, and while BUSY the statement says nothing of the value: the spec leaves OUT_LEN and
IN_POS unspecified (U4) and describes no read of SRC_LEN (log 23). -/
def Obligations.HostReadsOfRegisters : Prop :=
  ∀ (s : State) (r : Reg) (l : List Input), s.inputs = .readReg r :: l →
    ∃ t, step s = .next t ∧ t = { s with inputs := l, hostData := t.hostData, freeCount := t.freeCount } ∧
      (r = .cmd → t.hostData = 0) ∧
      (r = .srcLen → s.phase ≠ .busy → t.hostData = s.srcLen) ∧
      (r = .status → t.hostData.toNat = s.statusWord.toNat) ∧
      (r = .cause → t.hostData.toNat = s.causeWord.toNat) ∧
      (r = .outLen → s.phase ≠ .busy → t.hostData = s.outLen) ∧
      (r = .inPos → s.phase ≠ .busy → t.hostData = s.inPos)

/-- R21, R23, R196, R74: a host write of SRC_LEN takes effect outside BUSY. While BUSY it is ignored where the parameter
takes R21 and R196, and refused by name where it takes R74, which gives the host no such move; that both readings are in
the model is its own choice, log 24. -/
def Obligations.HostWritesOfSrcLen : Prop :=
  ∀ (s : State) (v : Reg64) (l : List Input), s.inputs = .writeSrcLen v :: l →
    (s.phase ≠ .busy → step s = .next { s with inputs := l, srcLen := v }) ∧
    (s.phase = .busy → s.cfg.srcLenWhileBusy = .ignored → step s = .next { s with inputs := l }) ∧
    (s.phase = .busy → s.cfg.srcLenWhileBusy = .noMove → step s = .refused .hostWritesSrcLenWhileBusy)

/-- R36, R37, R69, R196: outside BUSY a host write of a SRC cell changes that cell alone, and a host read of a DST cell
hands over its byte and changes nothing else. -/
def Obligations.HostAccessesToMemory : Prop :=
  ∀ (s : State) (a : Nat) (b : Byte) (l : List Input), s.phase ≠ .busy →
    (s.inputs = .writeSrc a b :: l → s.srcHas (a + 1) = true →
      ∃ t, step s = .next t ∧ t.src.read a = b ∧ (∀ x, x ≠ a → t.src.read x = s.src.read x) ∧
        t = { s with inputs := l, src := t.src }) ∧
    (s.inputs = .readDst a :: l → s.dstHas (a + 1) = true →
      ∃ t, step s = .next t ∧ t.hostData.toNat = (s.dst.read a).toNat ∧
        t = { s with inputs := l, hostData := t.hostData })

/-- The model's choice (log 7; R197 (c), U8): the host has no move that touches SRC or DST while BUSY; one that tries
is refused by name. -/
def Obligations.HostMayNotTouchMemoryWhileBusy : Prop :=
  ∀ (s : State) (a : Nat) (b : Byte) (l : List Input), s.phase = .busy →
    (s.inputs = .writeSrc a b :: l → step s = .refused .hostTouchesMemoryWhileBusy) ∧
    (s.inputs = .readDst a :: l → step s = .refused .hostTouchesMemoryWhileBusy)
end

