-- ==== Sys2Proof/Laws/Fields.lean ====
section
/-! SUPPORT. The bit fields of the formats as arithmetic on natural numbers. -/

namespace Sys2Proof

theorem wordOfBytes_toNat (b0 b1 : Byte) : (wordOfBytes b0 b1).toNat = b0.toNat + 256 * b1.toNat := by
  have h0 := b0.isLt
  have h1 := b1.isLt
  simp only [wordOfBytes, BitVec.toNat_ofNat]
  omega

theorem headerOfBytes_toNat (b0 b1 b2 b3 : Byte) :
    (headerOfBytes b0 b1 b2 b3).toNat =
      b0.toNat + 256 * b1.toNat + 65536 * b2.toNat + 16777216 * b3.toNat := by
  have h0 := b0.isLt
  have h1 := b1.isLt
  have h2 := b2.isLt
  have h3 := b3.isLt
  simp only [headerOfBytes, BitVec.toNat_ofNat]
  omega

theorem distField_toNat (w : TokenWord) : (distField w).toNat = w.toNat / 16 := by
  have h := w.isLt
  simp only [distField, BitVec.toNat_setWidth, BitVec.toNat_ushiftRight, Nat.shiftRight_eq_div_pow]
  omega

theorem lenField_toNat (w : TokenWord) : (lenField w).toNat = w.toNat % 16 := by
  have h : w.toNat &&& 15 = w.toNat % 16 := Nat.and_two_pow_sub_one_eq_mod w.toNat 4
  simp only [lenField, BitVec.toNat_setWidth, BitVec.toNat_and, BitVec.toNat_ofNat]
  simp [h]

/-- "Because `tlen < 16` the or is the same as addition: `word = 16*tdist + tlen`" (R93). -/
theorem packWord_toNat (d : Dist) (n : Len) : (packWord d n).toNat = 16 * d.toNat + n.toNat := by
  have hd := d.isLt
  have hn : n.toNat < 2 ^ 4 := n.isLt
  have h1 : (d.setWidth 16 <<< 4).toNat = d.toNat <<< 4 := by
    simp only [BitVec.toNat_shiftLeft, BitVec.toNat_setWidth, Nat.shiftLeft_eq]
    omega
  have h2 : (n.setWidth 16).toNat = n.toNat := by
    simp only [BitVec.toNat_setWidth]
    omega
  rw [packWord, BitVec.toNat_or, h1, h2, ← Nat.shiftLeft_add_eq_or_of_lt hn, Nat.shiftLeft_eq]
  omega

theorem lowByte_toNat (w : TokenWord) : (lowByte w).toNat = w.toNat % 256 := by
  simp [lowByte]

theorem highByte_toNat (w : TokenWord) : (highByte w).toNat = w.toNat / 256 := by
  have h := w.isLt
  simp only [highByte, BitVec.extractLsb'_toNat, Nat.shiftRight_eq_div_pow]
  omega

end Sys2Proof
end

