-- ==== Sys2Proof/Laws/Memory.lean ====
section
/-! SUPPORT. The laws of the two memories: read after write, frames, and that every operation keeps the canonical
form, in which equal memories are equal data. -/

namespace Sys2Proof.Machine

/-! ## One byte -/

@[simp] theorem Memory.read_nil (a : Nat) : Memory.read [] a = Memory.fill := rfl

theorem Memory.read_cons (k : Nat) (b : Byte) (m : Memory) (a : Nat) :
    Memory.read ((k, b) :: m) a = if k = a then b else Memory.read m a := rfl

theorem Memory.read_insert_same (m : Memory) (a : Nat) (b : Byte) : (Memory.insert m a b).read a = b := by
  induction m with
  | nil => simp [Memory.insert, Memory.read_cons]
  | cons c m ih =>
    obtain ⟨k, c⟩ := c
    simp only [Memory.insert]
    split_ifs with h1 h2
    · rw [Memory.read_cons, if_neg (by omega), ih]
    · rw [Memory.read_cons, if_pos rfl]
    · rw [Memory.read_cons, if_pos rfl]

theorem Memory.read_insert_other (m : Memory) (a x : Nat) (b : Byte) (h : x ≠ a) :
    (Memory.insert m a b).read x = m.read x := by
  induction m with
  | nil => simp [Memory.insert, Memory.read_cons, Ne.symm h]
  | cons c m ih =>
    obtain ⟨k, c⟩ := c
    simp only [Memory.insert]
    split_ifs with h1 h2
    · rw [Memory.read_cons, Memory.read_cons, ih]
    · rw [Memory.read_cons, Memory.read_cons, if_neg (by omega), if_neg (by omega)]
    · rw [Memory.read_cons, if_neg (by omega)]

theorem Memory.read_filter_same (m : Memory) (a : Nat) :
    Memory.read (m.filter (fun c => c.1 ≠ a)) a = Memory.fill := by
  induction m with
  | nil => rfl
  | cons c m ih =>
    obtain ⟨k, c⟩ := c
    by_cases h : k = a
    · rw [List.filter_cons_of_neg (by simp [h]), ih]
    · rw [List.filter_cons_of_pos (by simp [h]), Memory.read_cons, if_neg h, ih]

theorem Memory.read_filter_other (m : Memory) (a x : Nat) (h : x ≠ a) :
    Memory.read (m.filter (fun c => c.1 ≠ a)) x = m.read x := by
  induction m with
  | nil => rfl
  | cons c m ih =>
    obtain ⟨k, c⟩ := c
    by_cases hk : k = a
    · rw [List.filter_cons_of_neg (by simp [hk]), ih, Memory.read_cons, if_neg (by omega)]
    · rw [List.filter_cons_of_pos (by simp [hk]), Memory.read_cons, Memory.read_cons, ih]

/-- A read after a write to the same index gives the byte written. -/
@[simp] theorem Memory.read_write_same (m : Memory) (a : Nat) (b : Byte) : (m.write a b).read a = b := by
  rw [Memory.write]
  split_ifs with h
  · rw [Memory.read_filter_same, h]
  · exact Memory.read_insert_same m a b

/-- A write leaves every other index alone. -/
theorem Memory.read_write_other (m : Memory) {a x : Nat} (b : Byte) (h : x ≠ a) :
    (m.write a b).read x = m.read x := by
  rw [Memory.write]
  split_ifs
  · exact Memory.read_filter_other m a x h
  · exact Memory.read_insert_other m a x b h

theorem Memory.read_write (m : Memory) (a x : Nat) (b : Byte) :
    (m.write a b).read x = if x = a then b else m.read x := by
  split_ifs with h
  · rw [h, Memory.read_write_same]
  · exact Memory.read_write_other m b h

/-! ## The canonical form -/

theorem Memory.mem_insert {m : Memory} {a : Nat} {b : Byte} {c : Host.Cell} (h : c ∈ Memory.insert m a b) :
    c = (a, b) ∨ c ∈ m := by
  induction m with
  | nil => exact .inl (by simpa [Memory.insert] using h)
  | cons e m ih =>
    obtain ⟨k, e⟩ := e
    simp only [Memory.insert] at h
    split_ifs at h
    · rcases List.mem_cons.1 h with rfl | h
      · exact .inr (by simp)
      · exact (ih h).imp_right (List.mem_cons_of_mem _)
    · rcases List.mem_cons.1 h with rfl | h
      · exact .inl rfl
      · exact .inr (List.mem_cons_of_mem _ h)
    · rcases List.mem_cons.1 h with rfl | h
      · exact .inl rfl
      · exact .inr h

theorem Memory.insert_sorted {m : Memory} {a : Nat} {b : Byte} (h : m.Pairwise (fun x y => x.1 < y.1)) :
    (Memory.insert m a b).Pairwise (fun x y => x.1 < y.1) := by
  induction m with
  | nil => simp [Memory.insert]
  | cons e m ih =>
    obtain ⟨k, e⟩ := e
    obtain ⟨hk, hm⟩ := List.pairwise_cons.1 h
    simp only [Memory.insert]
    split_ifs with h1 h2
    · refine List.pairwise_cons.2 ⟨fun c hc => ?_, ih hm⟩
      rcases Memory.mem_insert hc with rfl | hc
      · exact h1
      · exact hk c hc
    · subst h2
      exact List.pairwise_cons.2 ⟨hk, hm⟩
    · refine List.pairwise_cons.2 ⟨fun c hc => ?_, h⟩
      rcases List.mem_cons.1 hc with rfl | hc
      · show a < k
        omega
      · exact lt_trans (show a < k by omega) (hk c hc)

theorem Memory.nil_wf : Memory.wf [] := by simp [Memory.wf]

/-- A write keeps the canonical form. -/
theorem Memory.write_wf {m : Memory} (h : m.wf) (a : Nat) (b : Byte) : (m.write a b).wf := by
  rw [Memory.write]
  split_ifs with hb
  · exact ⟨h.1.filter _, fun c hc => h.2 c (List.mem_filter.1 hc).1⟩
  · refine ⟨Memory.insert_sorted h.1, fun c hc => ?_⟩
    rcases Memory.mem_insert hc with rfl | hc
    · exact hb
    · exact h.2 c hc

theorem Memory.read_of_all_above {m : Memory} {a : Nat} (h : ∀ c ∈ m, a < c.1) : m.read a = Memory.fill := by
  induction m with
  | nil => rfl
  | cons e m ih =>
    obtain ⟨k, e⟩ := e
    have hk : a < k := h (k, e) (by simp)
    rw [Memory.read_cons, if_neg (by omega)]
    exact ih fun c hc => h c (List.mem_cons_of_mem _ hc)

/-- In the canonical form, memories that read alike are equal data. -/
theorem Memory.ext_of_wf {m n : Memory} (hm : m.wf) (hn : n.wf) (h : ∀ a, m.read a = n.read a) : m = n := by
  induction m generalizing n with
  | nil =>
    cases n with
    | nil => rfl
    | cons e n =>
      obtain ⟨k, e⟩ := e
      refine absurd (h k).symm ?_
      rw [Memory.read_cons, if_pos rfl, Memory.read_nil]
      exact hn.2 (k, e) (by simp)
  | cons c m ih =>
    obtain ⟨k, c⟩ := c
    obtain ⟨hk, hs⟩ := List.pairwise_cons.1 hm.1
    have hc : c ≠ Memory.fill := hm.2 (k, c) (by simp)
    cases n with
    | nil =>
      refine absurd (h k) ?_
      rw [Memory.read_cons, if_pos rfl, Memory.read_nil]
      exact hc
    | cons e n =>
      obtain ⟨l, e⟩ := e
      obtain ⟨hl, ht⟩ := List.pairwise_cons.1 hn.1
      have he : e ≠ Memory.fill := hn.2 (l, e) (by simp)
      have hkl : k = l := by
        rcases lt_trichotomy k l with hlt | heq | hgt
        · have h1 := h k
          rw [Memory.read_cons, if_pos rfl, Memory.read_cons, if_neg (by omega),
            Memory.read_of_all_above fun x hx => lt_trans hlt (hl x hx)] at h1
          exact absurd h1 hc
        · exact heq
        · have h1 := h l
          rw [Memory.read_cons, if_neg (by omega), Memory.read_cons, if_pos rfl,
            Memory.read_of_all_above fun x hx => lt_trans hgt (hk x hx)] at h1
          exact absurd h1.symm he
      subst hkl
      have hce : c = e := by simpa [Memory.read_cons] using h k
      subst hce
      congr 1
      refine ih ⟨hs, fun x hx => hm.2 x (List.mem_cons_of_mem _ hx)⟩
        ⟨ht, fun x hx => hn.2 x (List.mem_cons_of_mem _ hx)⟩ fun a => ?_
      by_cases ha : k = a
      · subst ha
        rw [Memory.read_of_all_above hk, Memory.read_of_all_above hl]
      · simpa [Memory.read_cons, ha] using h a

/-! ## Several bytes -/

/-- Bytes outside the written ones stay. -/
theorem Memory.read_writeBytes_outside (m : Memory) (a : Nat) (bs : List Byte) (x : Nat)
    (h : x < a ∨ a + bs.length ≤ x) : (m.writeBytes a bs).read x = m.read x := by
  induction bs generalizing m a with
  | nil => rfl
  | cons b bs ih =>
    simp only [List.length_cons] at h
    rw [Memory.writeBytes, ih _ _ (by omega), Memory.read_write_other _ _ (by omega)]

/-- The bytes written are read back. -/
theorem Memory.read_writeBytes_inside (m : Memory) (a : Nat) (bs : List Byte) (j : Nat) (h : j < bs.length) :
    (m.writeBytes a bs).read (a + j) = bs[j] := by
  induction bs generalizing m a j with
  | nil => simp at h
  | cons b bs ih =>
    rw [Memory.writeBytes]
    cases j with
    | zero => rw [Memory.read_writeBytes_outside _ _ _ _ (by omega)]; simp
    | succ j =>
      rw [show a + (j + 1) = a + 1 + j by omega, ih _ _ _ (by simpa using h)]
      simp

theorem Memory.writeBytes_wf {m : Memory} (h : m.wf) (a : Nat) (bs : List Byte) : (m.writeBytes a bs).wf := by
  induction bs generalizing m a with
  | nil => exact h
  | cons b bs ih => exact ih (Memory.write_wf h a b) _

@[simp] theorem bytesLE_length (n v : Nat) : (bytesLE n v).length = n := by
  induction n generalizing v with
  | zero => rfl
  | succ n ih => simp [bytesLE, ih]

/-- Byte `k` of the little-endian bytes is `(v >> 8k) & 0xFF` (R14). -/
theorem bytesLE_getElem (n v k : Nat) (h : k < (bytesLE n v).length) :
    (bytesLE n v)[k] = BitVec.ofNat 8 (v / 256 ^ k) := by
  induction n generalizing v k with
  | zero => simp at h
  | succ n ih =>
    cases k with
    | zero => simp [bytesLE]
    | succ k =>
      have hk : k < (bytesLE n (v / 256)).length := by simpa [bytesLE] using h
      simp only [bytesLE, List.getElem_cons_succ]
      rw [ih _ _ hk, Nat.div_div_eq_div_mul, pow_succ, Nat.mul_comm]

theorem Memory.read_memWrite_outside (m : Memory) (a n v x : Nat) (h : x < a ∨ a + n ≤ x) :
    (m.memWrite a n v).read x = m.read x :=
  Memory.read_writeBytes_outside m a _ x (by simpa using h)

theorem Memory.read_memWrite_inside (m : Memory) (a n v k : Nat) (h : k < n) :
    (m.memWrite a n v).read (a + k) = BitVec.ofNat 8 (v / 256 ^ k) := by
  rw [Memory.memWrite, Memory.read_writeBytes_inside _ _ _ _ (by simpa using h), bytesLE_getElem]

theorem Memory.memWrite_wf {m : Memory} (h : m.wf) (a n v : Nat) : (m.memWrite a n v).wf :=
  Memory.writeBytes_wf h a _

end Sys2Proof.Machine
end

