-- ==== Sys2Proof/Laws/State.lean ====
section
/-! SUPPORT. One lemma per field per named update of the state and of the working registers, so that no proof unfolds
a record update. -/

namespace Sys2Proof.Machine

/-! ## `State.setWork` -/

@[simp] theorem State.setWork_phase (s : State) (w : Working) : (s.setWork w).phase = s.phase := rfl
@[simp] theorem State.setWork_op (s : State) (w : Working) : (s.setWork w).op = s.op := rfl
@[simp] theorem State.setWork_cause (s : State) (w : Working) : (s.setWork w).cause = s.cause := rfl
@[simp] theorem State.setWork_srcLen (s : State) (w : Working) : (s.setWork w).srcLen = s.srcLen := rfl
@[simp] theorem State.setWork_outLen (s : State) (w : Working) : (s.setWork w).outLen = s.outLen := rfl
@[simp] theorem State.setWork_inPos (s : State) (w : Working) : (s.setWork w).inPos = s.inPos := rfl
@[simp] theorem State.setWork_work (s : State) (w : Working) : (s.setWork w).work = w := rfl
@[simp] theorem State.setWork_src (s : State) (w : Working) : (s.setWork w).src = s.src := rfl
@[simp] theorem State.setWork_dst (s : State) (w : Working) : (s.setWork w).dst = s.dst := rfl
@[simp] theorem State.setWork_cfg (s : State) (w : Working) : (s.setWork w).cfg = s.cfg := rfl
@[simp] theorem State.setWork_inputs (s : State) (w : Working) : (s.setWork w).inputs = s.inputs := rfl
@[simp] theorem State.setWork_hostData (s : State) (w : Working) : (s.setWork w).hostData = s.hostData := rfl
@[simp] theorem State.setWork_freeCount (s : State) (w : Working) : (s.setWork w).freeCount = s.freeCount := rfl
@[simp] theorem State.setWork_srcHas (s : State) (w : Working) (n : Nat) : (s.setWork w).srcHas n = s.srcHas n := rfl
@[simp] theorem State.setWork_dstHas (s : State) (w : Working) (n : Nat) : (s.setWork w).dstHas n = s.dstHas n := rfl

/-! ## `State.setDst` -/

@[simp] theorem State.setDst_phase (s : State) (m : Memory) : (s.setDst m).phase = s.phase := rfl
@[simp] theorem State.setDst_op (s : State) (m : Memory) : (s.setDst m).op = s.op := rfl
@[simp] theorem State.setDst_cause (s : State) (m : Memory) : (s.setDst m).cause = s.cause := rfl
@[simp] theorem State.setDst_srcLen (s : State) (m : Memory) : (s.setDst m).srcLen = s.srcLen := rfl
@[simp] theorem State.setDst_outLen (s : State) (m : Memory) : (s.setDst m).outLen = s.outLen := rfl
@[simp] theorem State.setDst_inPos (s : State) (m : Memory) : (s.setDst m).inPos = s.inPos := rfl
@[simp] theorem State.setDst_work (s : State) (m : Memory) : (s.setDst m).work = s.work := rfl
@[simp] theorem State.setDst_src (s : State) (m : Memory) : (s.setDst m).src = s.src := rfl
@[simp] theorem State.setDst_dst (s : State) (m : Memory) : (s.setDst m).dst = m := rfl
@[simp] theorem State.setDst_cfg (s : State) (m : Memory) : (s.setDst m).cfg = s.cfg := rfl
@[simp] theorem State.setDst_inputs (s : State) (m : Memory) : (s.setDst m).inputs = s.inputs := rfl
@[simp] theorem State.setDst_hostData (s : State) (m : Memory) : (s.setDst m).hostData = s.hostData := rfl
@[simp] theorem State.setDst_freeCount (s : State) (m : Memory) : (s.setDst m).freeCount = s.freeCount := rfl
@[simp] theorem State.setDst_srcHas (s : State) (m : Memory) (n : Nat) : (s.setDst m).srcHas n = s.srcHas n := rfl
@[simp] theorem State.setDst_dstHas (s : State) (m : Memory) (n : Nat) : (s.setDst m).dstHas n = s.dstHas n := rfl

/-! ## `State.setSrc` -/

@[simp] theorem State.setSrc_phase (s : State) (m : Memory) : (s.setSrc m).phase = s.phase := rfl
@[simp] theorem State.setSrc_op (s : State) (m : Memory) : (s.setSrc m).op = s.op := rfl
@[simp] theorem State.setSrc_cause (s : State) (m : Memory) : (s.setSrc m).cause = s.cause := rfl
@[simp] theorem State.setSrc_srcLen (s : State) (m : Memory) : (s.setSrc m).srcLen = s.srcLen := rfl
@[simp] theorem State.setSrc_outLen (s : State) (m : Memory) : (s.setSrc m).outLen = s.outLen := rfl
@[simp] theorem State.setSrc_inPos (s : State) (m : Memory) : (s.setSrc m).inPos = s.inPos := rfl
@[simp] theorem State.setSrc_work (s : State) (m : Memory) : (s.setSrc m).work = s.work := rfl
@[simp] theorem State.setSrc_src (s : State) (m : Memory) : (s.setSrc m).src = m := rfl
@[simp] theorem State.setSrc_dst (s : State) (m : Memory) : (s.setSrc m).dst = s.dst := rfl
@[simp] theorem State.setSrc_cfg (s : State) (m : Memory) : (s.setSrc m).cfg = s.cfg := rfl
@[simp] theorem State.setSrc_inputs (s : State) (m : Memory) : (s.setSrc m).inputs = s.inputs := rfl
@[simp] theorem State.setSrc_hostData (s : State) (m : Memory) : (s.setSrc m).hostData = s.hostData := rfl
@[simp] theorem State.setSrc_freeCount (s : State) (m : Memory) : (s.setSrc m).freeCount = s.freeCount := rfl
@[simp] theorem State.setSrc_srcHas (s : State) (m : Memory) (n : Nat) : (s.setSrc m).srcHas n = s.srcHas n := rfl
@[simp] theorem State.setSrc_dstHas (s : State) (m : Memory) (n : Nat) : (s.setSrc m).dstHas n = s.dstHas n := rfl

/-! ## `State.setSrcLen` -/

@[simp] theorem State.setSrcLen_phase (s : State) (v : Reg64) : (s.setSrcLen v).phase = s.phase := rfl
@[simp] theorem State.setSrcLen_op (s : State) (v : Reg64) : (s.setSrcLen v).op = s.op := rfl
@[simp] theorem State.setSrcLen_cause (s : State) (v : Reg64) : (s.setSrcLen v).cause = s.cause := rfl
@[simp] theorem State.setSrcLen_srcLen (s : State) (v : Reg64) : (s.setSrcLen v).srcLen = v := rfl
@[simp] theorem State.setSrcLen_outLen (s : State) (v : Reg64) : (s.setSrcLen v).outLen = s.outLen := rfl
@[simp] theorem State.setSrcLen_inPos (s : State) (v : Reg64) : (s.setSrcLen v).inPos = s.inPos := rfl
@[simp] theorem State.setSrcLen_work (s : State) (v : Reg64) : (s.setSrcLen v).work = s.work := rfl
@[simp] theorem State.setSrcLen_src (s : State) (v : Reg64) : (s.setSrcLen v).src = s.src := rfl
@[simp] theorem State.setSrcLen_dst (s : State) (v : Reg64) : (s.setSrcLen v).dst = s.dst := rfl
@[simp] theorem State.setSrcLen_cfg (s : State) (v : Reg64) : (s.setSrcLen v).cfg = s.cfg := rfl
@[simp] theorem State.setSrcLen_inputs (s : State) (v : Reg64) : (s.setSrcLen v).inputs = s.inputs := rfl
@[simp] theorem State.setSrcLen_hostData (s : State) (v : Reg64) : (s.setSrcLen v).hostData = s.hostData := rfl
@[simp] theorem State.setSrcLen_freeCount (s : State) (v : Reg64) : (s.setSrcLen v).freeCount = s.freeCount := rfl
@[simp] theorem State.setSrcLen_srcHas (s : State) (v : Reg64) (n : Nat) : (s.setSrcLen v).srcHas n = s.srcHas n := rfl
@[simp] theorem State.setSrcLen_dstHas (s : State) (v : Reg64) (n : Nat) : (s.setSrcLen v).dstHas n = s.dstHas n := rfl

/-! ## `State.setInputs` -/

@[simp] theorem State.setInputs_phase (s : State) (l : List Input) : (s.setInputs l).phase = s.phase := rfl
@[simp] theorem State.setInputs_op (s : State) (l : List Input) : (s.setInputs l).op = s.op := rfl
@[simp] theorem State.setInputs_cause (s : State) (l : List Input) : (s.setInputs l).cause = s.cause := rfl
@[simp] theorem State.setInputs_srcLen (s : State) (l : List Input) : (s.setInputs l).srcLen = s.srcLen := rfl
@[simp] theorem State.setInputs_outLen (s : State) (l : List Input) : (s.setInputs l).outLen = s.outLen := rfl
@[simp] theorem State.setInputs_inPos (s : State) (l : List Input) : (s.setInputs l).inPos = s.inPos := rfl
@[simp] theorem State.setInputs_work (s : State) (l : List Input) : (s.setInputs l).work = s.work := rfl
@[simp] theorem State.setInputs_src (s : State) (l : List Input) : (s.setInputs l).src = s.src := rfl
@[simp] theorem State.setInputs_dst (s : State) (l : List Input) : (s.setInputs l).dst = s.dst := rfl
@[simp] theorem State.setInputs_cfg (s : State) (l : List Input) : (s.setInputs l).cfg = s.cfg := rfl
@[simp] theorem State.setInputs_inputs (s : State) (l : List Input) : (s.setInputs l).inputs = l := rfl
@[simp] theorem State.setInputs_hostData (s : State) (l : List Input) : (s.setInputs l).hostData = s.hostData := rfl
@[simp] theorem State.setInputs_freeCount (s : State) (l : List Input) : (s.setInputs l).freeCount = s.freeCount := rfl
@[simp] theorem State.setInputs_srcHas (s : State) (l : List Input) (n : Nat) : (s.setInputs l).srcHas n = s.srcHas n := rfl
@[simp] theorem State.setInputs_dstHas (s : State) (l : List Input) (n : Nat) : (s.setInputs l).dstHas n = s.dstHas n := rfl

/-! ## `State.setHostData` -/

@[simp] theorem State.setHostData_phase (s : State) (v : Reg64) : (s.setHostData v).phase = s.phase := rfl
@[simp] theorem State.setHostData_op (s : State) (v : Reg64) : (s.setHostData v).op = s.op := rfl
@[simp] theorem State.setHostData_cause (s : State) (v : Reg64) : (s.setHostData v).cause = s.cause := rfl
@[simp] theorem State.setHostData_srcLen (s : State) (v : Reg64) : (s.setHostData v).srcLen = s.srcLen := rfl
@[simp] theorem State.setHostData_outLen (s : State) (v : Reg64) : (s.setHostData v).outLen = s.outLen := rfl
@[simp] theorem State.setHostData_inPos (s : State) (v : Reg64) : (s.setHostData v).inPos = s.inPos := rfl
@[simp] theorem State.setHostData_work (s : State) (v : Reg64) : (s.setHostData v).work = s.work := rfl
@[simp] theorem State.setHostData_src (s : State) (v : Reg64) : (s.setHostData v).src = s.src := rfl
@[simp] theorem State.setHostData_dst (s : State) (v : Reg64) : (s.setHostData v).dst = s.dst := rfl
@[simp] theorem State.setHostData_cfg (s : State) (v : Reg64) : (s.setHostData v).cfg = s.cfg := rfl
@[simp] theorem State.setHostData_inputs (s : State) (v : Reg64) : (s.setHostData v).inputs = s.inputs := rfl
@[simp] theorem State.setHostData_hostData (s : State) (v : Reg64) : (s.setHostData v).hostData = v := rfl
@[simp] theorem State.setHostData_freeCount (s : State) (v : Reg64) : (s.setHostData v).freeCount = s.freeCount := rfl
@[simp] theorem State.setHostData_srcHas (s : State) (v : Reg64) (n : Nat) : (s.setHostData v).srcHas n = s.srcHas n := rfl
@[simp] theorem State.setHostData_dstHas (s : State) (v : Reg64) (n : Nat) : (s.setHostData v).dstHas n = s.dstHas n := rfl

/-! ## `State.countFree` -/

@[simp] theorem State.countFree_phase (s : State) : s.countFree.phase = s.phase := rfl
@[simp] theorem State.countFree_op (s : State) : s.countFree.op = s.op := rfl
@[simp] theorem State.countFree_cause (s : State) : s.countFree.cause = s.cause := rfl
@[simp] theorem State.countFree_srcLen (s : State) : s.countFree.srcLen = s.srcLen := rfl
@[simp] theorem State.countFree_outLen (s : State) : s.countFree.outLen = s.outLen := rfl
@[simp] theorem State.countFree_inPos (s : State) : s.countFree.inPos = s.inPos := rfl
@[simp] theorem State.countFree_work (s : State) : s.countFree.work = s.work := rfl
@[simp] theorem State.countFree_src (s : State) : s.countFree.src = s.src := rfl
@[simp] theorem State.countFree_dst (s : State) : s.countFree.dst = s.dst := rfl
@[simp] theorem State.countFree_cfg (s : State) : s.countFree.cfg = s.cfg := rfl
@[simp] theorem State.countFree_inputs (s : State) : s.countFree.inputs = s.inputs := rfl
@[simp] theorem State.countFree_hostData (s : State) : s.countFree.hostData = s.hostData := rfl
@[simp] theorem State.countFree_freeCount (s : State) : s.countFree.freeCount = s.freeCount + 1 := rfl
@[simp] theorem State.countFree_srcHas (s : State) (n : Nat) : s.countFree.srcHas n = s.srcHas n := rfl
@[simp] theorem State.countFree_dstHas (s : State) (n : Nat) : s.countFree.dstHas n = s.dstHas n := rfl

/-! ## `State.raised` -/

@[simp] theorem State.raised_phase (s : State) (c : Cause) (o i : Nat) : (s.raised c o i).phase = .fault := rfl
@[simp] theorem State.raised_op (s : State) (c : Cause) (o i : Nat) : (s.raised c o i).op = s.op := rfl
@[simp] theorem State.raised_cause (s : State) (c : Cause) (o i : Nat) : (s.raised c o i).cause = c := rfl
@[simp] theorem State.raised_srcLen (s : State) (c : Cause) (o i : Nat) : (s.raised c o i).srcLen = s.srcLen := rfl
@[simp] theorem State.raised_outLen (s : State) (c : Cause) (o i : Nat) : (s.raised c o i).outLen = BitVec.ofNat 64 o := rfl
@[simp] theorem State.raised_inPos (s : State) (c : Cause) (o i : Nat) : (s.raised c o i).inPos = BitVec.ofNat 64 i := rfl
@[simp] theorem State.raised_work (s : State) (c : Cause) (o i : Nat) : (s.raised c o i).work = s.work := rfl
@[simp] theorem State.raised_src (s : State) (c : Cause) (o i : Nat) : (s.raised c o i).src = s.src := rfl
@[simp] theorem State.raised_dst (s : State) (c : Cause) (o i : Nat) : (s.raised c o i).dst = s.dst := rfl
@[simp] theorem State.raised_cfg (s : State) (c : Cause) (o i : Nat) : (s.raised c o i).cfg = s.cfg := rfl
@[simp] theorem State.raised_inputs (s : State) (c : Cause) (o i : Nat) : (s.raised c o i).inputs = s.inputs := rfl
@[simp] theorem State.raised_hostData (s : State) (c : Cause) (o i : Nat) : (s.raised c o i).hostData = s.hostData := rfl
@[simp] theorem State.raised_freeCount (s : State) (c : Cause) (o i : Nat) : (s.raised c o i).freeCount = s.freeCount := rfl
@[simp] theorem State.raised_srcHas (s : State) (c : Cause) (o i : Nat) (n : Nat) : (s.raised c o i).srcHas n = s.srcHas n := rfl
@[simp] theorem State.raised_dstHas (s : State) (c : Cause) (o i : Nat) (n : Nat) : (s.raised c o i).dstHas n = s.dstHas n := rfl

/-! ## `State.started` -/

@[simp] theorem State.started_phase (s : State) (o : Op) : (s.started o).phase = .busy := rfl
@[simp] theorem State.started_op (s : State) (o : Op) : (s.started o).op = o := rfl
@[simp] theorem State.started_cause (s : State) (o : Op) : (s.started o).cause = .none := rfl
@[simp] theorem State.started_srcLen (s : State) (o : Op) : (s.started o).srcLen = s.srcLen := rfl
@[simp] theorem State.started_outLen (s : State) (o : Op) : (s.started o).outLen = 0 := rfl
@[simp] theorem State.started_inPos (s : State) (o : Op) : (s.started o).inPos = 0 := rfl
@[simp] theorem State.started_work (s : State) (o : Op) : (s.started o).work = s.work := rfl
@[simp] theorem State.started_src (s : State) (o : Op) : (s.started o).src = s.src := rfl
@[simp] theorem State.started_dst (s : State) (o : Op) : (s.started o).dst = s.dst := rfl
@[simp] theorem State.started_cfg (s : State) (o : Op) : (s.started o).cfg = s.cfg := rfl
@[simp] theorem State.started_inputs (s : State) (o : Op) : (s.started o).inputs = s.inputs := rfl
@[simp] theorem State.started_hostData (s : State) (o : Op) : (s.started o).hostData = s.hostData := rfl
@[simp] theorem State.started_freeCount (s : State) (o : Op) : (s.started o).freeCount = s.freeCount := rfl
@[simp] theorem State.started_srcHas (s : State) (o : Op) (n : Nat) : (s.started o).srcHas n = s.srcHas n := rfl
@[simp] theorem State.started_dstHas (s : State) (o : Op) (n : Nat) : (s.started o).dstHas n = s.dstHas n := rfl

/-! ## `State.finished` -/

@[simp] theorem State.finished_phase (s : State) (o i : Nat) : (s.finished o i).phase = .done := rfl
@[simp] theorem State.finished_op (s : State) (o i : Nat) : (s.finished o i).op = s.op := rfl
@[simp] theorem State.finished_cause (s : State) (o i : Nat) : (s.finished o i).cause = s.cause := rfl
@[simp] theorem State.finished_srcLen (s : State) (o i : Nat) : (s.finished o i).srcLen = s.srcLen := rfl
@[simp] theorem State.finished_outLen (s : State) (o i : Nat) : (s.finished o i).outLen = BitVec.ofNat 64 o := rfl
@[simp] theorem State.finished_inPos (s : State) (o i : Nat) : (s.finished o i).inPos = BitVec.ofNat 64 i := rfl
@[simp] theorem State.finished_work (s : State) (o i : Nat) : (s.finished o i).work = s.work := rfl
@[simp] theorem State.finished_src (s : State) (o i : Nat) : (s.finished o i).src = s.src := rfl
@[simp] theorem State.finished_dst (s : State) (o i : Nat) : (s.finished o i).dst = s.dst := rfl
@[simp] theorem State.finished_cfg (s : State) (o i : Nat) : (s.finished o i).cfg = s.cfg := rfl
@[simp] theorem State.finished_inputs (s : State) (o i : Nat) : (s.finished o i).inputs = s.inputs := rfl
@[simp] theorem State.finished_hostData (s : State) (o i : Nat) : (s.finished o i).hostData = s.hostData := rfl
@[simp] theorem State.finished_freeCount (s : State) (o i : Nat) : (s.finished o i).freeCount = s.freeCount := rfl
@[simp] theorem State.finished_srcHas (s : State) (o i : Nat) (n : Nat) : (s.finished o i).srcHas n = s.srcHas n := rfl
@[simp] theorem State.finished_dstHas (s : State) (o i : Nat) (n : Nat) : (s.finished o i).dstHas n = s.dstHas n := rfl

/-! ## `State.afterReset` -/

@[simp] theorem State.afterReset_phase (s : State) : s.afterReset.phase = .idle := rfl
@[simp] theorem State.afterReset_op (s : State) : s.afterReset.op = .none := rfl
@[simp] theorem State.afterReset_cause (s : State) : s.afterReset.cause = .none := rfl
@[simp] theorem State.afterReset_srcLen (s : State) : s.afterReset.srcLen = 0 := rfl
@[simp] theorem State.afterReset_outLen (s : State) : s.afterReset.outLen = 0 := rfl
@[simp] theorem State.afterReset_inPos (s : State) : s.afterReset.inPos = 0 := rfl
@[simp] theorem State.afterReset_work (s : State) : s.afterReset.work = Working.free s.freeCount := rfl
@[simp] theorem State.afterReset_src (s : State) : s.afterReset.src = s.src := rfl
@[simp] theorem State.afterReset_dst (s : State) : s.afterReset.dst = s.dst := rfl
@[simp] theorem State.afterReset_cfg (s : State) : s.afterReset.cfg = s.cfg := rfl
@[simp] theorem State.afterReset_inputs (s : State) : s.afterReset.inputs = s.inputs := rfl
@[simp] theorem State.afterReset_hostData (s : State) : s.afterReset.hostData = s.hostData := rfl
@[simp] theorem State.afterReset_freeCount (s : State) : s.afterReset.freeCount = s.freeCount + 1 := rfl
@[simp] theorem State.afterReset_srcHas (s : State) (n : Nat) : s.afterReset.srcHas n = s.srcHas n := rfl
@[simp] theorem State.afterReset_dstHas (s : State) (n : Nat) : s.afterReset.dstHas n = s.dstHas n := rfl

/-! ## `Working.headed` -/

@[simp] theorem Working.headed_N (w : Working) (n : HeaderWord) : (w.headed n).N = n.toNat := rfl
@[simp] theorem Working.headed_p (w : Working) (n : HeaderWord) : (w.headed n).p = w.p := rfl
@[simp] theorem Working.headed_wp (w : Working) (n : HeaderWord) : (w.headed n).wp = w.wp := rfl
@[simp] theorem Working.headed_bd (w : Working) (n : HeaderWord) : (w.headed n).bd = w.bd := rfl
@[simp] theorem Working.headed_bl (w : Working) (n : HeaderWord) : (w.headed n).bl = w.bl := rfl
@[simp] theorem Working.headed_d (w : Working) (n : HeaderWord) : (w.headed n).d = w.d := rfl
@[simp] theorem Working.headed_len (w : Working) (n : HeaderWord) : (w.headed n).len = w.len := rfl
@[simp] theorem Working.headed_mdist (w : Working) (n : HeaderWord) : (w.headed n).mdist = w.mdist := rfl
@[simp] theorem Working.headed_mlen (w : Working) (n : HeaderWord) : (w.headed n).mlen = w.mlen := rfl
@[simp] theorem Working.headed_adv (w : Working) (n : HeaderWord) : (w.headed n).adv = w.adv := rfl
@[simp] theorem Working.headed_cursor (w : Working) (n : HeaderWord) : (w.headed n).cursor = w.cursor := rfl
@[simp] theorem Working.headed_rp (w : Working) (n : HeaderWord) : (w.headed n).rp = 4 := rfl
@[simp] theorem Working.headed_word (w : Working) (n : HeaderWord) : (w.headed n).word = w.word := rfl
@[simp] theorem Working.headed_tdist (w : Working) (n : HeaderWord) : (w.headed n).tdist = w.tdist := rfl
@[simp] theorem Working.headed_tlen (w : Working) (n : HeaderWord) : (w.headed n).tlen = w.tlen := rfl
@[simp] theorem Working.headed_lit (w : Working) (n : HeaderWord) : (w.headed n).lit = w.lit := rfl
@[simp] theorem Working.headed_i (w : Working) (n : HeaderWord) : (w.headed n).i = w.i := rfl

/-! ## `Working.unpacked` -/

@[simp] theorem Working.unpacked_N (w : Working) (b0 b1 b2 : Byte) : (w.unpacked b0 b1 b2).N = w.N := rfl
@[simp] theorem Working.unpacked_p (w : Working) (b0 b1 b2 : Byte) : (w.unpacked b0 b1 b2).p = w.p := rfl
@[simp] theorem Working.unpacked_wp (w : Working) (b0 b1 b2 : Byte) : (w.unpacked b0 b1 b2).wp = w.wp := rfl
@[simp] theorem Working.unpacked_bd (w : Working) (b0 b1 b2 : Byte) : (w.unpacked b0 b1 b2).bd = w.bd := rfl
@[simp] theorem Working.unpacked_bl (w : Working) (b0 b1 b2 : Byte) : (w.unpacked b0 b1 b2).bl = w.bl := rfl
@[simp] theorem Working.unpacked_d (w : Working) (b0 b1 b2 : Byte) : (w.unpacked b0 b1 b2).d = w.d := rfl
@[simp] theorem Working.unpacked_len (w : Working) (b0 b1 b2 : Byte) : (w.unpacked b0 b1 b2).len = w.len := rfl
@[simp] theorem Working.unpacked_mdist (w : Working) (b0 b1 b2 : Byte) : (w.unpacked b0 b1 b2).mdist = w.mdist := rfl
@[simp] theorem Working.unpacked_mlen (w : Working) (b0 b1 b2 : Byte) : (w.unpacked b0 b1 b2).mlen = w.mlen := rfl
@[simp] theorem Working.unpacked_adv (w : Working) (b0 b1 b2 : Byte) : (w.unpacked b0 b1 b2).adv = w.adv := rfl
@[simp] theorem Working.unpacked_cursor (w : Working) (b0 b1 b2 : Byte) : (w.unpacked b0 b1 b2).cursor = w.cursor := rfl
@[simp] theorem Working.unpacked_rp (w : Working) (b0 b1 b2 : Byte) : (w.unpacked b0 b1 b2).rp = w.rp := rfl
@[simp] theorem Working.unpacked_word (w : Working) (b0 b1 b2 : Byte) : (w.unpacked b0 b1 b2).word = wordOfBytes b0 b1 := rfl
@[simp] theorem Working.unpacked_tdist (w : Working) (b0 b1 b2 : Byte) : (w.unpacked b0 b1 b2).tdist = distField (wordOfBytes b0 b1) := rfl
@[simp] theorem Working.unpacked_tlen (w : Working) (b0 b1 b2 : Byte) : (w.unpacked b0 b1 b2).tlen = lenField (wordOfBytes b0 b1) := rfl
@[simp] theorem Working.unpacked_lit (w : Working) (b0 b1 b2 : Byte) : (w.unpacked b0 b1 b2).lit = b2 := rfl
@[simp] theorem Working.unpacked_i (w : Working) (b0 b1 b2 : Byte) : (w.unpacked b0 b1 b2).i = w.i := rfl

/-! ## `Working.packed` -/

@[simp] theorem Working.packed_N (w : Working) : w.packed.N = w.N := rfl
@[simp] theorem Working.packed_p (w : Working) : w.packed.p = w.p := rfl
@[simp] theorem Working.packed_wp (w : Working) : w.packed.wp = w.wp + 3 := rfl
@[simp] theorem Working.packed_bd (w : Working) : w.packed.bd = w.bd := rfl
@[simp] theorem Working.packed_bl (w : Working) : w.packed.bl = w.bl := rfl
@[simp] theorem Working.packed_d (w : Working) : w.packed.d = w.d := rfl
@[simp] theorem Working.packed_len (w : Working) : w.packed.len = w.len := rfl
@[simp] theorem Working.packed_mdist (w : Working) : w.packed.mdist = w.mdist := rfl
@[simp] theorem Working.packed_mlen (w : Working) : w.packed.mlen = w.mlen := rfl
@[simp] theorem Working.packed_adv (w : Working) : w.packed.adv = w.adv := rfl
@[simp] theorem Working.packed_cursor (w : Working) : w.packed.cursor = w.cursor := rfl
@[simp] theorem Working.packed_rp (w : Working) : w.packed.rp = w.rp := rfl
@[simp] theorem Working.packed_word (w : Working) : w.packed.word = packWord w.tdist w.tlen := rfl
@[simp] theorem Working.packed_tdist (w : Working) : w.packed.tdist = w.tdist := rfl
@[simp] theorem Working.packed_tlen (w : Working) : w.packed.tlen = w.tlen := rfl
@[simp] theorem Working.packed_lit (w : Working) : w.packed.lit = w.lit := rfl
@[simp] theorem Working.packed_i (w : Working) : w.packed.i = w.i := rfl

/-! ## `Working.searched` -/

@[simp] theorem Working.searched_N (w : Working) (r : Search) : (w.searched r).N = w.N := rfl
@[simp] theorem Working.searched_p (w : Working) (r : Search) : (w.searched r).p = w.p := rfl
@[simp] theorem Working.searched_wp (w : Working) (r : Search) : (w.searched r).wp = w.wp := rfl
@[simp] theorem Working.searched_bd (w : Working) (r : Search) : (w.searched r).bd = BitVec.ofNat 12 r.bd := rfl
@[simp] theorem Working.searched_bl (w : Working) (r : Search) : (w.searched r).bl = BitVec.ofNat 4 r.bl := rfl
@[simp] theorem Working.searched_d (w : Working) (r : Search) : (w.searched r).d = BitVec.ofNat 12 r.d := rfl
@[simp] theorem Working.searched_len (w : Working) (r : Search) : (w.searched r).len = BitVec.ofNat 4 r.len := rfl
@[simp] theorem Working.searched_mdist (w : Working) (r : Search) : (w.searched r).mdist = BitVec.ofNat 12 r.bd := rfl
@[simp] theorem Working.searched_mlen (w : Working) (r : Search) : (w.searched r).mlen = BitVec.ofNat 4 r.bl := rfl
@[simp] theorem Working.searched_adv (w : Working) (r : Search) : (w.searched r).adv = w.adv := rfl
@[simp] theorem Working.searched_cursor (w : Working) (r : Search) : (w.searched r).cursor = w.cursor := rfl
@[simp] theorem Working.searched_rp (w : Working) (r : Search) : (w.searched r).rp = w.rp := rfl
@[simp] theorem Working.searched_word (w : Working) (r : Search) : (w.searched r).word = w.word := rfl
@[simp] theorem Working.searched_tdist (w : Working) (r : Search) : (w.searched r).tdist = w.tdist := rfl
@[simp] theorem Working.searched_tlen (w : Working) (r : Search) : (w.searched r).tlen = w.tlen := rfl
@[simp] theorem Working.searched_lit (w : Working) (r : Search) : (w.searched r).lit = w.lit := rfl
@[simp] theorem Working.searched_i (w : Working) (r : Search) : (w.searched r).i = w.i := rfl

/-! ## `Working.emitted` -/

@[simp] theorem Working.emitted_N (w : Working) (n : Len) (l : Byte) (a : Nat) : (w.emitted n l a).N = w.N := rfl
@[simp] theorem Working.emitted_p (w : Working) (n : Len) (l : Byte) (a : Nat) : (w.emitted n l a).p = w.p := rfl
@[simp] theorem Working.emitted_wp (w : Working) (n : Len) (l : Byte) (a : Nat) : (w.emitted n l a).wp = w.wp := rfl
@[simp] theorem Working.emitted_bd (w : Working) (n : Len) (l : Byte) (a : Nat) : (w.emitted n l a).bd = w.bd := rfl
@[simp] theorem Working.emitted_bl (w : Working) (n : Len) (l : Byte) (a : Nat) : (w.emitted n l a).bl = w.bl := rfl
@[simp] theorem Working.emitted_d (w : Working) (n : Len) (l : Byte) (a : Nat) : (w.emitted n l a).d = w.d := rfl
@[simp] theorem Working.emitted_len (w : Working) (n : Len) (l : Byte) (a : Nat) : (w.emitted n l a).len = w.len := rfl
@[simp] theorem Working.emitted_mdist (w : Working) (n : Len) (l : Byte) (a : Nat) : (w.emitted n l a).mdist = w.mdist := rfl
@[simp] theorem Working.emitted_mlen (w : Working) (n : Len) (l : Byte) (a : Nat) : (w.emitted n l a).mlen = w.mlen := rfl
@[simp] theorem Working.emitted_adv (w : Working) (n : Len) (l : Byte) (a : Nat) : (w.emitted n l a).adv = a := rfl
@[simp] theorem Working.emitted_cursor (w : Working) (n : Len) (l : Byte) (a : Nat) : (w.emitted n l a).cursor = w.cursor := rfl
@[simp] theorem Working.emitted_rp (w : Working) (n : Len) (l : Byte) (a : Nat) : (w.emitted n l a).rp = w.rp := rfl
@[simp] theorem Working.emitted_word (w : Working) (n : Len) (l : Byte) (a : Nat) : (w.emitted n l a).word = w.word := rfl
@[simp] theorem Working.emitted_tdist (w : Working) (n : Len) (l : Byte) (a : Nat) : (w.emitted n l a).tdist = w.mdist := rfl
@[simp] theorem Working.emitted_tlen (w : Working) (n : Len) (l : Byte) (a : Nat) : (w.emitted n l a).tlen = n := rfl
@[simp] theorem Working.emitted_lit (w : Working) (n : Len) (l : Byte) (a : Nat) : (w.emitted n l a).lit = l := rfl
@[simp] theorem Working.emitted_i (w : Working) (n : Len) (l : Byte) (a : Nat) : (w.emitted n l a).i = w.i := rfl

/-! ## `Working.tokenDone` -/

@[simp] theorem Working.tokenDone_N (w : Working) (d : Dist) (n : Len) : (w.tokenDone d n).N = w.N := rfl
@[simp] theorem Working.tokenDone_p (w : Working) (d : Dist) (n : Len) : (w.tokenDone d n).p = w.p := rfl
@[simp] theorem Working.tokenDone_wp (w : Working) (d : Dist) (n : Len) : (w.tokenDone d n).wp = w.wp := rfl
@[simp] theorem Working.tokenDone_bd (w : Working) (d : Dist) (n : Len) : (w.tokenDone d n).bd = w.bd := rfl
@[simp] theorem Working.tokenDone_bl (w : Working) (d : Dist) (n : Len) : (w.tokenDone d n).bl = w.bl := rfl
@[simp] theorem Working.tokenDone_d (w : Working) (d : Dist) (n : Len) : (w.tokenDone d n).d = w.d := rfl
@[simp] theorem Working.tokenDone_len (w : Working) (d : Dist) (n : Len) : (w.tokenDone d n).len = w.len := rfl
@[simp] theorem Working.tokenDone_mdist (w : Working) (d : Dist) (n : Len) : (w.tokenDone d n).mdist = w.mdist := rfl
@[simp] theorem Working.tokenDone_mlen (w : Working) (d : Dist) (n : Len) : (w.tokenDone d n).mlen = w.mlen := rfl
@[simp] theorem Working.tokenDone_adv (w : Working) (d : Dist) (n : Len) : (w.tokenDone d n).adv = w.adv := rfl
@[simp] theorem Working.tokenDone_cursor (w : Working) (d : Dist) (n : Len) : (w.tokenDone d n).cursor = w.cursor + span d n := rfl
@[simp] theorem Working.tokenDone_rp (w : Working) (d : Dist) (n : Len) : (w.tokenDone d n).rp = w.rp + 3 := rfl
@[simp] theorem Working.tokenDone_word (w : Working) (d : Dist) (n : Len) : (w.tokenDone d n).word = w.word := rfl
@[simp] theorem Working.tokenDone_tdist (w : Working) (d : Dist) (n : Len) : (w.tokenDone d n).tdist = w.tdist := rfl
@[simp] theorem Working.tokenDone_tlen (w : Working) (d : Dist) (n : Len) : (w.tokenDone d n).tlen = w.tlen := rfl
@[simp] theorem Working.tokenDone_lit (w : Working) (d : Dist) (n : Len) : (w.tokenDone d n).lit = w.lit := rfl
@[simp] theorem Working.tokenDone_i (w : Working) (d : Dist) (n : Len) : (w.tokenDone d n).i = BitVec.ofNat 4 (effLen d n) := rfl

end Sys2Proof.Machine
end

