-- ==== Sys2Proof/Laws/Ops.lean ====
section
/-! SUPPORT. One lemma per shared operation: what it can answer, said once. -/

namespace Sys2Proof.Machine

/-! ## Outcomes -/

@[simp] theorem andThen_next (s : State) (f : State → Host.Outcome State Fault Refusal) :
    andThen (.next s) f = f s := rfl

@[simp] theorem andThen_fault (r : Fault) (f : State → Host.Outcome State Fault Refusal) :
    andThen (.fault r) f = .fault r := rfl

@[simp] theorem andThen_refused (r : Refusal) (f : State → Host.Outcome State Fault Refusal) :
    andThen (.refused r) f = .refused r := rfl

/-- If a sequence answers a next state, both parts did. -/
theorem andThen_eq_next {o : Host.Outcome State Fault Refusal} {f : State → Host.Outcome State Fault Refusal}
    {t : State} (h : andThen o f = .next t) : ∃ s, o = .next s ∧ f s = .next t := by
  cases o with
  | next s => exact ⟨s, rfl, h⟩
  | fault r => simp at h
  | refused r => simp at h

/-! ## Capacities -/

theorem hasCells_iff (cap : Option Nat) (n : Nat) : hasCells cap n = true ↔ ∀ c, cap = some c → n ≤ c := by
  cases cap with
  | none => simp [hasCells]
  | some c => simp [hasCells]

theorem hasCells_mono {cap : Option Nat} {m n : Nat} (h : hasCells cap n = true) (hmn : m ≤ n) :
    hasCells cap m = true :=
  (hasCells_iff cap m).2 fun c hc => le_trans hmn ((hasCells_iff cap n).1 h c hc)

theorem State.srcHas_mono {s : State} {m n : Nat} (h : s.srcHas n = true) (hmn : m ≤ n) : s.srcHas m = true :=
  hasCells_mono h hmn

theorem State.dstHas_mono {s : State} {m n : Nat} (h : s.dstHas n = true) (hmn : m ≤ n) : s.dstHas m = true :=
  hasCells_mono h hmn

theorem State.needSrc_of_has {s : State} {n : Nat} (h : s.srcHas n = true)
    (o : Host.Outcome State Fault Refusal) : s.needSrc n o = o := if_pos h

theorem State.needDst_of_has {s : State} {n : Nat} (h : s.dstHas n = true)
    (o : Host.Outcome State Fault Refusal) : s.needDst n o = o := if_pos h

theorem State.needSrc_eq_next {s t : State} {n : Nat} {o : Host.Outcome State Fault Refusal}
    (h : s.needSrc n o = .next t) : s.srcHas n = true ∧ o = .next t := by
  rw [State.needSrc] at h
  split_ifs at h with hs
  exact ⟨hs, h⟩

theorem State.needDst_eq_next {s t : State} {n : Nat} {o : Host.Outcome State Fault Refusal}
    (h : s.needDst n o = .next t) : s.dstHas n = true ∧ o = .next t := by
  rw [State.needDst] at h
  split_ifs at h with hs
  exact ⟨hs, h⟩

/-! ## Conditions and commands -/

theorem raise_eq_next {s t : State} {c : Cause} {o i : Nat} (h : raise s c o i = .next t) : t = s.raised c o i := by
  cases h
  rfl

/-- What accepting a command can answer: nothing changes while BUSY, else its start ran and SRC has the cells. -/
theorem accept_eq_next {s t : State} {o : Host.Outcome State Fault Refusal} (h : accept s o = .next t) :
    (s.phase = .busy ∧ t = s) ∨ (s.phase ≠ .busy ∧ s.srcHas s.srcLen.toNat = true ∧ o = .next t) := by
  rw [accept] at h
  split_ifs at h with hb hs
  · cases h
    exact .inl ⟨hb, rfl⟩
  · exact .inr ⟨hb, hs, h⟩

theorem hostMemory_eq_next {s t : State} {o : Host.Outcome State Fault Refusal} (h : hostMemory s o = .next t) :
    s.phase ≠ .busy ∧ o = .next t := by
  rw [hostMemory] at h
  split_ifs at h with hb
  exact ⟨hb, h⟩

/-- What a host write of SRC_LEN can answer: nothing changes while BUSY, in the one reading that has the move, else
SRC_LEN is the value written. -/
theorem hostWriteSrcLen_eq_next {v : Reg64} {s t : State} (h : hostWriteSrcLen v s = .next t) :
    (s.phase = .busy ∧ s.cfg.srcLenWhileBusy = .ignored ∧ t = s) ∨ (s.phase ≠ .busy ∧ t = s.setSrcLen v) := by
  rw [hostWriteSrcLen] at h
  split_ifs at h with hb
  · cases hc : s.cfg.srcLenWhileBusy <;> rw [hc] at h <;> cases h
    exact .inl ⟨hb, rfl, rfl⟩
  · cases h
    exact .inr ⟨hb, rfl⟩

/-- What the start of a COMPRESS job can answer: `InputTooLarge`, or the job with its pointers at 0. -/
theorem startCompress_eq_next {s t : State} (h : startCompress s = .next t) :
    ((Config.nMax < s.srcLen.toNat ∨ s.dstHas (worstCaseOutput s.srcLen.toNat) = false) ∧
      t = (s.started .compress).raised .inputTooLarge 0 0) ∨
    (s.srcLen.toNat ≤ Config.nMax ∧ s.dstHas (worstCaseOutput s.srcLen.toNat) = true ∧
      t = (s.started .compress).setWork { s.work with N := s.srcLen.toNat, p := 0, wp := 0 }) := by
  rw [startCompress] at h
  split_ifs at h with h1 h2
  · exact .inl ⟨.inl h1, raise_eq_next h⟩
  · cases h
    exact .inr ⟨by omega, h2, rfl⟩
  · exact .inl ⟨.inr (by simpa using h2), raise_eq_next h⟩

end Sys2Proof.Machine
end

