-- ==== Sys2Proof/Laws/MatchFinder.lean ====
section
/-! SUPPORT. The Match Finder: what growth and selection find (40_match_finder.md R122 to R128). -/

namespace Sys2Proof.Machine

/-! ## Growth -/

/-- What growth answers: a length from where it began up to the cap and the end of the input, every byte grown over
equal, and a reason it stopped (R122, R123, R124). -/
theorem grow_spec (src : Memory) (n p d fuel len : Nat) (hn : p + len ≤ n) :
    len ≤ grow src n p d fuel len ∧ grow src n p d fuel len ≤ len + fuel ∧ p + grow src n p d fuel len ≤ n ∧
    (∀ j, len ≤ j → j < grow src n p d fuel len → src.read (p - d + j) = src.read (p + j)) ∧
    (grow src n p d fuel len = len + fuel ∨ p + grow src n p d fuel len = n ∨
      src.read (p - d + grow src n p d fuel len) ≠ src.read (p + grow src n p d fuel len)) := by
  induction fuel generalizing len with
  | zero =>
    simp only [grow]
    exact ⟨le_refl _, le_refl _, hn, fun j h1 h2 => absurd h2 (by omega), .inl rfl⟩
  | succ fuel ih =>
    simp only [grow]
    split_ifs with h1 h2
    · obtain ⟨a, b, c, e, f⟩ := ih (len + 1) (by omega)
      refine ⟨by omega, by omega, c, fun j hj1 hj2 => ?_, ?_⟩
      · rcases Nat.lt_or_ge len j with hj | hj
        · exact e j hj hj2
        · rw [show j = len by omega]
          exact h2
      · rcases f with f | f | f
        · exact .inl (by omega)
        · exact .inr (.inl f)
        · exact .inr (.inr f)
    · exact ⟨le_refl _, by omega, hn, fun j h1 h2 => absurd h2 (by omega), .inr (.inr h2)⟩
    · exact ⟨le_refl _, by omega, hn, fun j h1 h2 => absurd h2 (by omega), .inr (.inl (by omega))⟩

/-- `L(d)` is a match within the cap and the input. -/
theorem candidateLen_matches (src : Memory) {n p : Nat} (d : Nat) (hn : p ≤ n) :
    candidateLen src n p d ≤ 15 ∧ p + candidateLen src n p d ≤ n ∧
    ∀ j, j < candidateLen src n p d → src.read (p - d + j) = src.read (p + j) := by
  obtain ⟨-, b, c, e, -⟩ := grow_spec src n p d Config.maxLen 0 (by omega)
  refine ⟨?_, c, fun j hj => e j (Nat.zero_le _) hj⟩
  have : Config.maxLen = 15 := rfl
  rw [candidateLen]
  omega

/-- `L(d)` is the greatest such length (R128). -/
theorem candidateLen_greatest (src : Memory) {n p d l : Nat} (hl : l ≤ 15) (hn : p + l ≤ n)
    (h : ∀ j, j < l → src.read (p - d + j) = src.read (p + j)) : l ≤ candidateLen src n p d := by
  obtain ⟨-, -, c, -, f⟩ := grow_spec src n p d Config.maxLen 0 (by omega)
  have h15 : Config.maxLen = 15 := rfl
  rw [candidateLen]
  rcases f with f | f | f
  · omega
  · omega
  · by_contra hlt
    exact f (h _ (by omega))

/-- Growth reads SRC only below `N` (20_memory.md R81). -/
theorem grow_congr {src src' : Memory} {n p d : Nat} (hd : 1 ≤ d) (h : ∀ a, a < n → src.read a = src'.read a)
    (fuel len : Nat) : grow src n p d fuel len = grow src' n p d fuel len := by
  induction fuel generalizing len with
  | zero => rfl
  | succ fuel ih =>
    simp only [grow]
    split_ifs with h1 h2 h3 h3
    · exact ih _
    · rw [h _ (show p - d + len < n by omega), h _ h1] at h2
      exact absurd h2 h3
    · rw [← h _ (show p - d + len < n by omega), ← h _ h1] at h3
      exact absurd h3 h2
    · rfl
    · rfl

/-! ## Selection -/

/-- The incumbent after all candidates below `d`: the longest so far, the least distance that reaches it, and nothing
kept when nothing matched. -/
structure Best (src : Memory) (n p d : Nat) (r : Search) : Prop where
  longest : ∀ e, 1 ≤ e → e < d → candidateLen src n p e ≤ r.bl
  kept : 1 ≤ r.bl → 1 ≤ r.bd ∧ r.bd < d ∧ candidateLen src n p r.bd = r.bl
  least : ∀ e, 1 ≤ e → e < r.bd → candidateLen src n p e < r.bl
  none : r.bl = 0 → r.bd = 0

theorem Best.start (src : Memory) (n p : Nat) : Best src n p 1 Search.start where
  longest e h1 h2 := absurd h2 (by omega)
  kept h := absurd h (by simp [Search.start])
  least e h1 h2 := absurd h2 (by simp [Search.start])
  none _ := rfl

theorem Best.try {src : Memory} {n p d : Nat} {r : Search} (h : Best src n p d r) (hd : 1 ≤ d) :
    Best src n p (d + 1) (r.try src n p d) := by
  rw [Search.try]
  split_ifs with hlt
  · refine ⟨fun e h1 h2 => ?_, fun _ => ⟨hd, by simp, rfl⟩, fun e h1 h2 => ?_, fun h0 => absurd hlt (by simp_all)⟩
    · rcases Nat.lt_or_ge e d with he | he
      · exact le_trans (h.longest e h1 he) hlt.le
      · rw [show e = d by omega]
    · exact lt_of_le_of_lt (h.longest e h1 h2) hlt
  · refine ⟨fun e h1 h2 => ?_, fun h1 => ?_, h.least, h.none⟩
    · rcases Nat.lt_or_ge e d with he | he
      · exact h.longest e h1 he
      · rw [show e = d by omega]
        exact not_lt.1 hlt
    · obtain ⟨a, b, c⟩ := h.kept h1
      exact ⟨a, by simp only; omega, c⟩

/-- The loop finds the best of all candidates up to `m`; the early exit loses nothing, since no length exceeds 15
(R126). -/
theorem searchFrom_best {src : Memory} {n p : Nat} (hn : p ≤ n) (k d : Nat) (r : Search) (hd : 1 ≤ d)
    (h : Best src n p d r) : ∃ e, d + k ≤ e ∧ Best src n p e (searchFrom src n p k d r) ∧
      (1 ≤ (searchFrom src n p k d r).bl → (searchFrom src n p k d r).bd < d + k) := by
  induction k generalizing d r with
  | zero => exact ⟨d, by omega, h, fun h1 => (h.kept h1).2.1⟩
  | succ k ih =>
    rw [searchFrom]
    have ht := h.try hd
    split_ifs with h15
    · refine ⟨d + (k + 1), le_refl _, ⟨fun e h1 h2 => ?_, fun h1 => ?_, ht.least, ht.none⟩, fun h1 => ?_⟩
      · rw [h15]
        exact (candidateLen_matches src e hn).1
      · obtain ⟨a, b, c⟩ := ht.kept h1
        exact ⟨a, by omega, c⟩
      · have := (ht.kept h1).2.1
        omega
    · obtain ⟨e, h1, h2, h3⟩ := ih (d + 1) _ (by omega) ht
      exact ⟨e, by omega, h2, fun h4 => by have := h3 h4; omega⟩

/-- MF.SEARCH finds the longest match, at the least distance, or (0, 0) (R127, R128). -/
theorem search_spec {src : Memory} {n p : Nat} (hn : p ≤ n) :
    (∀ e, 1 ≤ e → e ≤ candidates p → candidateLen src n p e ≤ (search src n p).bl) ∧
    (1 ≤ (search src n p).bl → 1 ≤ (search src n p).bd ∧ (search src n p).bd ≤ candidates p ∧
      candidateLen src n p (search src n p).bd = (search src n p).bl) ∧
    (∀ e, 1 ≤ e → e < (search src n p).bd → candidateLen src n p e < (search src n p).bl) ∧
    ((search src n p).bl = 0 → (search src n p).bd = 0) := by
  obtain ⟨e, h1, h2, h3⟩ := searchFrom_best hn (candidates p) 1 Search.start (le_refl _) (Best.start src n p)
  refine ⟨fun x hx1 hx2 => h2.longest x hx1 (by omega), fun hb => ?_, h2.least, h2.none⟩
  have hlt := h3 hb
  rw [show searchFrom src n p (candidates p) 1 Search.start = search src n p from rfl] at hlt
  exact ⟨(h2.kept hb).1, by omega, (h2.kept hb).2.2⟩

/-- The result fits its registers, reaches no further than the input, and is a match (R123, R124). -/
theorem search_bounds {src : Memory} {n p : Nat} (hn : p ≤ n) :
    (search src n p).bl ≤ 15 ∧ (search src n p).bd ≤ 4095 ∧ (search src n p).bd ≤ p ∧
    p + (search src n p).bl ≤ n ∧
    ∀ j, j < (search src n p).bl → src.read (p - (search src n p).bd + j) = src.read (p + j) := by
  obtain ⟨-, hk, -, h0⟩ := search_spec (src := src) hn
  have hc : candidates p ≤ 4095 ∧ candidates p ≤ p := ⟨min_le_left _ _, min_le_right _ _⟩
  rcases Nat.eq_zero_or_pos (search src n p).bl with hz | hp
  · rw [h0 hz, hz]
    exact ⟨by omega, by omega, by omega, by omega, fun j hj => absurd hj (by omega)⟩
  · obtain ⟨h1, h2, h3⟩ := hk hp
    obtain ⟨h4, h5, h6⟩ := candidateLen_matches src (search src n p).bd hn
    rw [h3] at h4 h5 h6
    exact ⟨h4, by omega, by omega, h5, h6⟩

/-- The search reads SRC only below `N` (R81). -/
theorem searchFrom_congr {src src' : Memory} {n p : Nat} (h : ∀ a, a < n → src.read a = src'.read a) (k d : Nat)
    (r : Search) (hd : 1 ≤ d) : searchFrom src n p k d r = searchFrom src' n p k d r := by
  induction k generalizing d r with
  | zero => rfl
  | succ k ih =>
    have ht : r.try src n p d = r.try src' n p d := by
      have hc : candidateLen src n p d = candidateLen src' n p d := grow_congr hd h _ _
      simp only [Search.try, hc]
    simp only [searchFrom, ht, ih (d + 1) _ (by omega)]

theorem search_congr {src src' : Memory} {n p : Nat} (h : ∀ a, a < n → src.read a = src'.read a) :
    search src n p = search src' n p :=
  searchFrom_congr h _ _ _ (le_refl _)

/-! ## The registers -/

theorem searched_mlen {src : Memory} {n p : Nat} (w : Working) (hn : p ≤ n) :
    (w.searched (search src n p)).mlen.toNat = (search src n p).bl := by
  have h := (search_bounds (src := src) hn).1
  simp only [Working.searched_mlen, BitVec.toNat_ofNat]
  omega

theorem searched_mdist {src : Memory} {n p : Nat} (w : Working) (hn : p ≤ n) :
    (w.searched (search src n p)).mdist.toNat = (search src n p).bd := by
  have h := (search_bounds (src := src) hn).2.1
  simp only [Working.searched_mdist, BitVec.toNat_ofNat]
  omega

end Sys2Proof.Machine
end

