-- ==== Sys2Proof/Laws/Token.lean ====
section
/-! SUPPORT. The token step of the decoder: operands, the byte-serial back-copy, and what the step can answer. -/

namespace Sys2Proof.Machine

/-! ## Operands -/

@[simp] theorem effLen_zero_dist (n : Len) : effLen 0 n = 0 := rfl

@[simp] theorem effLen_zero_len (d : Dist) : effLen d 0 = 0 := by
  rw [effLen]
  split_ifs <;> rfl

theorem effLen_of_ne {d : Dist} (h : d ≠ 0) (n : Len) : effLen d n = n.toNat := if_neg h

theorem effLen_le (d : Dist) (n : Len) : effLen d n ≤ 15 := by
  have hn := n.isLt
  rw [effLen]
  split_ifs
  · omega
  · omega

theorem span_bounds (d : Dist) (n : Len) : 1 ≤ span d n ∧ span d n ≤ 16 := by
  have h := effLen_le d n
  rw [span]
  omega

/-! ## The back-copy -/

/-- The back-copy writes only `DST[cursor + i .. cursor + i + k)`. -/
theorem read_backCopy_outside (c : Nat) (d : Dist) (k i : Nat) (m : Memory) (x : Nat)
    (h : x < c + i ∨ c + i + k ≤ x) : (backCopy c d k i m).read x = m.read x := by
  induction k generalizing i m with
  | zero => rfl
  | succ k ih =>
    rw [backCopy, ih (i + 1) _ (by omega), Memory.read_write_other _ _ (by rw [copyTarget]; omega)]

/-- Byte-serial (R169): what step `i + j` wrote is what its source index holds at the end, since no later step writes
below its own target. -/
theorem read_backCopy_serial (c : Nat) (d : Dist) (k i : Nat) (m : Memory) (j : Nat) (hj : j < k)
    (hd : 1 ≤ d.toNat) (hc : d.toNat ≤ c) :
    (backCopy c d k i m).read (c + i + j) = (backCopy c d k i m).read (c + i + j - d.toNat) := by
  induction k generalizing i m j with
  | zero => omega
  | succ k ih =>
    rw [backCopy]
    cases j with
    | zero =>
      rw [read_backCopy_outside _ _ _ _ _ _ (by omega), read_backCopy_outside _ _ _ _ _ _ (by omega),
        copyTarget, Memory.read_write_other _ _ (show c + i + 0 - d.toNat ≠ c + i by omega)]
      rw [show c + i + 0 = c + i by omega, Memory.read_write_same, copySource]
      congr 1
      omega
    | succ j =>
      have h := ih (i + 1) (m.write (copyTarget c i) (m.read (copySource c d i))) j (by omega)
      rw [show c + i + (j + 1) = c + (i + 1) + j by omega]
      exact h

theorem backCopy_wf {m : Memory} (h : m.wf) (c : Nat) (d : Dist) (k i : Nat) : (backCopy c d k i m).wf := by
  induction k generalizing i m with
  | zero => exact h
  | succ k ih => exact ih (Memory.write_wf h _ _) _

/-! ## DST after a token -/

/-- A token writes only `DST[cursor .. cursor + span)`. -/
theorem read_tokenDst_outside (m : Memory) (c : Nat) (d : Dist) (n : Len) (l : Byte) (x : Nat)
    (h : x < c ∨ c + span d n ≤ x) : (tokenDst m c d n l).read x = m.read x := by
  rw [span] at h
  rw [tokenDst, literalIndex, Memory.read_write_other _ _ (by omega), read_backCopy_outside _ _ _ _ _ _ (by omega)]

/-- The literal stands after the copied bytes (R170). -/
theorem read_tokenDst_literal (m : Memory) (c : Nat) (d : Dist) (n : Len) (l : Byte) :
    (tokenDst m c d n l).read (literalIndex c d n) = l := by
  rw [tokenDst, Memory.read_write_same]

/-- Each copied byte equals the byte `tdist` back in the output (R169). -/
theorem read_tokenDst_copied (m : Memory) (c : Nat) (d : Dist) (n : Len) (l : Byte) (j : Nat)
    (hj : j < effLen d n) (hd : 1 ≤ d.toNat) (hc : d.toNat ≤ c) :
    (tokenDst m c d n l).read (c + j) = (tokenDst m c d n l).read (c + j - d.toNat) := by
  rw [tokenDst, literalIndex, Memory.read_write_other _ _ (by omega), Memory.read_write_other _ _ (by omega)]
  have h := read_backCopy_serial c d (effLen d n) 0 m j hj hd hc
  simpa using h

/-- The back-copy reads only below the index it writes (20_memory.md R64): memories that agree below `cursor + i` agree
below its end. -/
theorem backCopy_agree {c : Nat} {d : Dist} (hd : 1 ≤ d.toNat) (hc : d.toNat ≤ c) (k i : Nat) (m m' : Memory)
    (h : ∀ a, a < c + i → m'.read a = m.read a) (a : Nat) (ha : a < c + i + k) :
    (backCopy c d k i m').read a = (backCopy c d k i m).read a := by
  induction k generalizing i m m' with
  | zero => exact h a (by omega)
  | succ k ih =>
    rw [backCopy, backCopy]
    refine ih (i + 1) _ _ (fun x hx => ?_) (by omega)
    by_cases hx' : x = copyTarget c i
    · rw [hx', Memory.read_write_same, Memory.read_write_same]
      exact h _ (by simp only [copySource]; omega)
    · rw [Memory.read_write_other _ _ hx', Memory.read_write_other _ _ hx']
      exact h x (by simp only [copyTarget] at hx'; omega)

/-- A token's output depends only on the output before it. -/
theorem tokenDst_agree {c : Nat} {d : Dist} (n : Len) (l : Byte) (hc : d.toNat ≤ c) {m m' : Memory}
    (h : ∀ a, a < c → m'.read a = m.read a) (a : Nat) (ha : a < c + span d n) :
    (tokenDst m' c d n l).read a = (tokenDst m c d n l).read a := by
  rw [span] at ha
  by_cases hl : a = literalIndex c d n
  · rw [hl, read_tokenDst_literal, read_tokenDst_literal]
  · have hlt : a < c + effLen d n := by
      rw [literalIndex] at hl
      omega
    rw [tokenDst, tokenDst, Memory.read_write_other _ _ hl, Memory.read_write_other _ _ hl]
    by_cases hd : d = 0
    · subst hd
      exact h a hlt
    · refine backCopy_agree ?_ hc _ 0 m m' h a hlt
      by_contra hz
      exact hd (BitVec.eq_of_toNat_eq (by simp; omega))

theorem tokenDst_wf {m : Memory} (h : m.wf) (c : Nat) (d : Dist) (n : Len) (l : Byte) :
    (tokenDst m c d n l).wf :=
  Memory.write_wf (backCopy_wf h _ _ _ _) _ _

/-! ## The step -/

/-- Everything a token step can answer as a next state: one of the two conditions, in that order, or the whole token. -/
theorem tokenStep_eq_next {d : Dist} {n : Len} {l : Byte} {s t : State} (h : tokenStep d n l s = .next t) :
    (s.work.cursor < d.toNat ∧
      t = s.raised (.malformedStream .backRefBeforeStart) s.work.cursor s.work.rp) ∨
    (d.toNat ≤ s.work.cursor ∧ s.work.N < s.work.cursor + span d n ∧
      t = s.raised (.malformedStream .overrun) s.work.cursor s.work.rp) ∨
    (d.toNat ≤ s.work.cursor ∧ s.work.cursor + span d n ≤ s.work.N ∧
      s.dstHas (s.work.cursor + span d n) = true ∧
      t = (s.setDst (tokenDst s.dst s.work.cursor d n l)).setWork (s.work.tokenDone d n)) := by
  rw [tokenStep] at h
  split_ifs at h with h1 h2
  · exact .inl ⟨h1, raise_eq_next h⟩
  · exact .inr (.inl ⟨by omega, h2, raise_eq_next h⟩)
  · obtain ⟨hd, ht⟩ := State.needDst_eq_next h
    cases ht
    exact .inr (.inr ⟨by omega, by omega, hd, rfl⟩)

/-- When a token step completes. -/
theorem tokenStep_completes {d : Dist} {n : Len} {l : Byte} {s : State} (h1 : d.toNat ≤ s.work.cursor)
    (h2 : s.work.cursor + span d n ≤ s.work.N) (h3 : s.dstHas (s.work.cursor + span d n) = true) :
    tokenStep d n l s =
      .next ((s.setDst (tokenDst s.dst s.work.cursor d n l)).setWork (s.work.tokenDone d n)) := by
  rw [tokenStep, if_neg (by omega), if_neg (by omega), State.needDst_of_has h3]

/-- Whatever the class, a token's meaning is the one token step (R100). -/
theorem exec_classify (d : Dist) (n : Len) (l : Byte) (s : State) : exec (classify d n l) s = tokenStep d n l s := by
  rw [classify]
  split_ifs with hd hn hn
  · subst hd hn
    rfl
  · subst hd
    rfl
  · subst hn
    rfl
  · rfl

end Sys2Proof.Machine
end

