-- ==== Sys2Proof/Laws/Step.lean ====
section
/-! SUPPORT. What one step can do, said once: the token steps of both jobs, the core's turn, a move of the
environment. -/

namespace Sys2Proof.Machine

/-! ## The operations of COMPRESS -/

theorem execMfSearch_eq_next {s t : State} (h : execMfSearch s = .next t) :
    s.srcHas s.work.N = true ∧ t = s.setWork (s.work.searched (search s.src s.work.N s.work.p)) := by
  obtain ⟨h1, h2⟩ := State.needSrc_eq_next h
  cases h2
  exact ⟨h1, rfl⟩

theorem execEncHdr_eq_next {s t : State} (h : execEncHdr s = .next t) :
    s.dstHas 4 = true ∧ t = (s.setDst (s.dst.memWrite 0 4 s.work.N)).setWork { s.work with wp := 4 } := by
  obtain ⟨h1, h2⟩ := State.needDst_eq_next h
  cases h2
  exact ⟨h1, rfl⟩

theorem execEncNormal_eq_next {s t : State} (h : execEncNormal s = .next t) :
    s.work.p + s.work.mlen.toNat < s.work.N ∧
    t = s.setWork (s.work.emitted s.work.mlen (s.src.read (s.work.p + s.work.mlen.toNat))
      (s.work.mlen.toNat + 1)) := by
  rw [execEncNormal] at h
  split_ifs at h with hm
  obtain ⟨-, h2⟩ := State.needSrc_eq_next h
  cases h2
  exact ⟨by simpa [normalMode] using hm, rfl⟩

theorem execEncBoundary_eq_next {s t : State} (h : execEncBoundary s = .next t) :
    (1 ≤ s.work.mlen.toNat ∧ s.work.p + s.work.mlen.toNat = s.work.N) ∧
    t = s.setWork (s.work.emitted (s.work.mlen - 1) (s.src.read (s.work.p + s.work.mlen.toNat - 1))
      s.work.mlen.toNat) := by
  rw [execEncBoundary] at h
  split_ifs at h with hm
  obtain ⟨-, h2⟩ := State.needSrc_eq_next h
  cases h2
  exact ⟨by simpa [boundaryMode] using hm, rfl⟩

theorem execPack_eq_next {s t : State} (h : execPack s = .next t) :
    s.dstHas (s.work.wp + 3) = true ∧
    t = (s.setDst (packDst s.dst s.work)).setWork s.work.packed := by
  obtain ⟨h1, h2⟩ := State.needDst_eq_next h
  cases h2
  exact ⟨h1, rfl⟩

/-- PACK writes only `DST[wp .. wp + 3)`. -/
theorem read_packDst_outside (m : Memory) (w : Working) (x : Nat) (h : x < w.wp ∨ w.wp + 3 ≤ x) :
    (packDst m w).read x = m.read x := by
  rw [packDst, Memory.read_memWrite_outside _ _ _ _ _ (by omega), Memory.read_memWrite_outside _ _ _ _ _ (by omega)]

/-- The three bytes PACK writes: `word[7:0]`, `word[15:8]`, `lit`. -/
theorem read_packDst_bytes (m : Memory) (w : Working) :
    (packDst m w).read w.wp = lowByte (packWord w.tdist w.tlen) ∧
    (packDst m w).read (w.wp + 1) = highByte (packWord w.tdist w.tlen) ∧
    (packDst m w).read (w.wp + 2) = w.lit := by
  have hw := (packWord w.tdist w.tlen).isLt
  have h0 := Memory.read_memWrite_inside m w.wp 2 (packWord w.tdist w.tlen).toNat 0 (by omega)
  have h1 := Memory.read_memWrite_inside m w.wp 2 (packWord w.tdist w.tlen).toNat 1 (by omega)
  have h2 := Memory.read_memWrite_inside (m.memWrite w.wp 2 (packWord w.tdist w.tlen).toNat) (w.wp + 2) 1
    w.lit.toNat 0 (by omega)
  refine ⟨?_, ?_, ?_⟩
  · rw [packDst, Memory.read_memWrite_outside _ _ _ _ _ (by omega)]
    rw [Nat.add_zero] at h0
    rw [h0]
    apply BitVec.eq_of_toNat_eq
    rw [lowByte_toNat, BitVec.toNat_ofNat]
    omega
  · rw [packDst, Memory.read_memWrite_outside _ _ _ _ _ (by omega), h1]
    apply BitVec.eq_of_toNat_eq
    rw [highByte_toNat, BitVec.toNat_ofNat]
    omega
  · rw [packDst]
    rw [Nat.add_zero] at h2
    rw [h2]
    simp

theorem packDst_wf {m : Memory} (h : m.wf) (w : Working) : (packDst m w).wf :=
  Memory.memWrite_wf (Memory.memWrite_wf h _ _ _) _ _ _

/-! ## The token step of COMPRESS -/

/-- The token COMPRESS emits at `p` for the Match Finder's result `r`: normal or boundary mode (R144 to R148). -/
inductive Emitted (s t : State) (r : Search) : Prop where
  | normal (below : s.work.p + r.bl < s.work.N) (tlen : t.work.tlen.toNat = r.bl)
      (lit : t.work.lit = s.src.read (s.work.p + r.bl)) (adv : t.work.adv = r.bl + 1)
  | boundary (reach : s.work.p + r.bl = s.work.N) (some : 1 ≤ r.bl) (tlen : t.work.tlen.toNat = r.bl - 1)
      (lit : t.work.lit = s.src.read (s.work.p + r.bl - 1)) (adv : t.work.adv = r.bl)

/-- Everything a token step of COMPRESS does. -/
structure CompressTokenDone (s t : State) : Prop where
  room : s.dstHas (s.work.wp + 3) = true
  frame : t = (s.setDst t.dst).setWork t.work
  N : t.work.N = s.work.N
  cursor : t.work.cursor = s.work.cursor
  rp : t.work.rp = s.work.rp
  wp : t.work.wp = s.work.wp + 3
  p : t.work.p = s.work.p + t.work.adv
  adv : t.work.adv = t.work.tlen.toNat + 1
  srcCells : s.srcHas s.work.N = true
  tdist : t.work.tdist.toNat = (search s.src s.work.N s.work.p).bd
  mlen : t.work.mlen.toNat = (search s.src s.work.N s.work.p).bl
  emitted : Emitted s t (search s.src s.work.N s.work.p)
  outside : ∀ x, x < s.work.wp ∨ s.work.wp + 3 ≤ x → t.dst.read x = s.dst.read x
  byte0 : t.dst.read s.work.wp = lowByte (packWord t.work.tdist t.work.tlen)
  byte1 : t.dst.read (s.work.wp + 1) = highByte (packWord t.work.tdist t.work.tlen)
  byte2 : t.dst.read (s.work.wp + 2) = t.work.lit
  dstWf : s.dst.wf → t.dst.wf

theorem compressToken_eq_next {s t : State} (hp : s.work.p ≤ s.work.N) (h : compressToken s = .next t) :
    CompressTokenDone s t := by
  obtain ⟨s1, h1, h⟩ := andThen_eq_next h
  obtain ⟨s2, h2, h⟩ := andThen_eq_next h
  obtain ⟨s3, h3, h⟩ := andThen_eq_next h
  have ht : t = s3.advanced := by
    cases h
    rfl
  obtain ⟨hsrc, e1⟩ := execMfSearch_eq_next h1
  obtain ⟨hroom, e3⟩ := execPack_eq_next h3
  have hb := search_bounds (src := s.src) hp
  have hmd := searched_mdist (src := s.src) s.work hp
  have hml := searched_mlen (src := s.src) s.work hp
  generalize hr : search s.src s.work.N s.work.p = r at *
  rw [emissionOp] at h2
  split_ifs at h2 with hmode
  · obtain ⟨g, e2⟩ := execEncNormal_eq_next h2
    subst e1 e2 e3 ht
    simp only [State.setWork_work, hml, Working.searched_p, Working.searched_N, State.setWork_src] at g ⊢
    have hbytes := read_packDst_bytes s.dst ((s.work.searched r).emitted (s.work.searched r).mlen
      (s.src.read (s.work.p + r.bl)) (r.bl + 1))
    refine ⟨hroom, rfl, rfl, rfl, rfl, rfl, rfl, ?_, hsrc, ?_, ?_, ?_, ?_, hbytes.1, hbytes.2.1, hbytes.2.2,
      fun hwf => packDst_wf hwf _⟩
    · show r.bl + 1 = (s.work.searched r).mlen.toNat + 1
      rw [hml]
    · rw [hr]
      exact hmd
    · rw [hr]
      exact hml
    · rw [hr]
      exact .normal g hml rfl rfl
    · intro x hx
      exact read_packDst_outside s.dst _ x hx
  · obtain ⟨⟨g1, g2⟩, e2⟩ := execEncBoundary_eq_next h2
    subst e1 e2 e3 ht
    simp only [State.setWork_work, hml, Working.searched_p, Working.searched_N, State.setWork_src] at g1 g2 ⊢
    have hsub : ((s.work.searched r).mlen - 1).toNat = r.bl - 1 := by
      have h15 := hb.1
      have h1 : (1 : Len).toNat = 1 := rfl
      rw [BitVec.toNat_sub, hml, h1]
      omega
    have hbytes := read_packDst_bytes s.dst ((s.work.searched r).emitted ((s.work.searched r).mlen - 1)
      (s.src.read (s.work.p + r.bl - 1)) r.bl)
    refine ⟨hroom, rfl, rfl, rfl, rfl, rfl, rfl, ?_, hsrc, ?_, ?_, ?_, ?_, hbytes.1, hbytes.2.1,
      hbytes.2.2, fun hwf => packDst_wf hwf _⟩
    · show r.bl = ((s.work.searched r).mlen - 1).toNat + 1
      rw [hsub]
      omega
    · rw [hr]
      exact hmd
    · rw [hr]
      exact hml
    · rw [hr]
      exact .boundary g2 g1 hsub rfl rfl
    · intro x hx
      exact read_packDst_outside s.dst _ x hx

/-- What one step of a COMPRESS job can answer: the header, a token, or the end. -/
theorem compressStep_eq_next {s t : State} (h : compressStep s = .next t) :
    (s.work.wp = 0 ∧ s.dstHas 4 = true ∧
      t = (s.setDst (s.dst.memWrite 0 4 s.work.N)).setWork { s.work with wp := 4 }) ∨
    (s.work.wp ≠ 0 ∧ s.work.p < s.work.N ∧ CompressTokenDone s t) ∨
    (s.work.wp ≠ 0 ∧ s.work.N ≤ s.work.p ∧ t = s.finished s.work.wp s.work.p) := by
  rw [compressStep] at h
  split_ifs at h with h1 h2
  · exact .inl ⟨h1, execEncHdr_eq_next h⟩
  · exact .inr (.inl ⟨h1, h2, compressToken_eq_next h2.le h⟩)
  · cases h
    exact .inr (.inr ⟨h1, by omega, rfl⟩)

/-! ## DECOMPRESS -/

theorem execHdr_eq_next {n : HeaderWord} {s t : State} (h : execHdr n s = .next t) :
    (s.dstHas n.toNat = true ∧ t = s.setWork (s.work.headed n)) ∨
    (s.dstHas n.toNat = false ∧ t = (s.setWork (s.work.headed n)).raised .outputTooLarge s.work.cursor 4) := by
  have h' : (if s.dstHas n.toNat = true then .next (s.setWork (s.work.headed n))
      else raise (s.setWork (s.work.headed n)) .outputTooLarge s.work.cursor 4) = Host.Outcome.next t := h
  by_cases h1 : s.dstHas n.toNat = true
  · rw [if_pos h1] at h'
    cases h'
    exact .inl ⟨h1, rfl⟩
  · rw [if_neg h1] at h'
    exact .inr ⟨by simpa using h1, raise_eq_next h'⟩

/-- The distance, length and literal of the token at `rp`. -/
def State.nextDist (s : State) : Dist := distField (wordOfBytes (s.src.read s.work.rp) (s.src.read (s.work.rp + 1)))

def State.nextLen (s : State) : Len := lenField (wordOfBytes (s.src.read s.work.rp) (s.src.read (s.work.rp + 1)))

def State.nextLit (s : State) : Byte := s.src.read (s.work.rp + 2)

/-- The state in which the token at `rp` runs: UNPACK has written its fields. -/
def State.nextUnpacked (s : State) : State :=
  s.setWork (s.work.unpacked (s.src.read s.work.rp) (s.src.read (s.work.rp + 1)) (s.src.read (s.work.rp + 2)))

theorem exec_fetchedToken (s u : State) :
    exec (fetchedToken s) u = tokenStep s.nextDist s.nextLen s.nextLit u := by
  rw [fetchedToken, decodeToken, exec_classify]
  rfl

/-- The token step of DECOMPRESS: the stream ends too early, or the token step runs after UNPACK. -/
theorem decompressToken_eq_next {s t : State} (h : decompressToken s = .next t) :
    (s.srcLen.toNat < s.work.rp + 3 ∧
      t = s.raised (.malformedStream .truncated) s.work.cursor s.work.rp) ∨
    (s.work.rp + 3 ≤ s.srcLen.toNat ∧ s.srcHas (s.work.rp + 3) = true ∧
      tokenStep s.nextDist s.nextLen s.nextLit s.nextUnpacked = .next t) := by
  rw [decompressToken] at h
  split_ifs at h with h1
  · exact .inl ⟨h1, raise_eq_next h⟩
  · obtain ⟨h2, h3⟩ := State.needSrc_eq_next h
    refine .inr ⟨not_lt.1 h1, h2, ?_⟩
    rw [← exec_fetchedToken]
    exact h3

/-- What one step of a DECOMPRESS job can answer: the header step, a token step, or the end. -/
theorem decompressStep_eq_next {s t : State} (h : decompressStep s = .next t) :
    (s.work.rp = 0 ∧ s.srcLen.toNat < 4 ∧
      t = s.raised (.malformedStream .truncated) s.work.cursor s.work.rp) ∨
    (s.work.rp = 0 ∧ 4 ≤ s.srcLen.toNat ∧ s.srcHas 4 = true ∧
      execHdr (headerOfBytes (s.src.read 0) (s.src.read 1) (s.src.read 2) (s.src.read 3)) s = .next t) ∨
    (s.work.rp ≠ 0 ∧ s.work.cursor < s.work.N ∧ decompressToken s = .next t) ∨
    (s.work.rp ≠ 0 ∧ s.work.N ≤ s.work.cursor ∧ t = s.finished s.work.cursor s.work.rp) := by
  rw [decompressStep] at h
  split_ifs at h with h1 h2
  · rw [headerStep] at h
    split_ifs at h with h3
    · exact .inl ⟨h1, h3, raise_eq_next h⟩
    · obtain ⟨h4, h5⟩ := State.needSrc_eq_next h
      exact .inr (.inl ⟨h1, not_lt.1 h3, h4, h5⟩)
  · exact .inr (.inr (.inl ⟨h1, h2, h⟩))
  · cases h
    exact .inr (.inr (.inr ⟨h1, by omega, rfl⟩))

/-! ## The core's turn and the moves of the environment -/

/-- What the core's turn can answer: nothing happens outside BUSY, else a step of the job. -/
theorem coreStep_eq_next {s t : State} (h : coreStep s = .next t) :
    (s.phase ≠ .busy ∧ t = s) ∨
    (s.phase = .busy ∧ s.op = .compress ∧ compressStep s = .next t) ∨
    (s.phase = .busy ∧ s.op = .decompress ∧ decompressStep s = .next t) := by
  rw [coreStep] at h
  cases hp : s.phase <;> rw [hp] at h <;> simp only at h
  · cases h
    exact .inl ⟨by simp, rfl⟩
  · cases ho : s.op <;> rw [ho] at h <;> simp only at h
    · cases h
    · exact .inr (.inl ⟨rfl, rfl, h⟩)
    · exact .inr (.inr ⟨rfl, rfl, h⟩)
  · cases h
    exact .inl ⟨by simp, rfl⟩
  · cases h
    exact .inl ⟨by simp, rfl⟩

theorem coreStep_compress {s : State} (hb : s.phase = .busy) (ho : s.op = .compress) : coreStep s = compressStep s := by
  simp only [coreStep, hb, ho]

theorem coreStep_decompress {s : State} (hb : s.phase = .busy) (ho : s.op = .decompress) :
    coreStep s = decompressStep s := by
  simp only [coreStep, hb, ho]

theorem step_quiet {s : State} (h : s.inputs = []) : step s = coreStep s := by
  simp only [step, h]

theorem step_input {s : State} {i : Input} {l : List Input} (h : s.inputs = i :: l) :
    step s = inputStep i (s.setInputs l) := by
  simp only [step, h]

/-- A value written to CMD is one of the four commands, by its two low bits. -/
theorem commandOf_cases (v : Reg64) :
    commandOf v = .cmdReserved0 ∨ commandOf v = .compress ∨ commandOf v = .decompress ∨
      commandOf v = .cmdReserved3 := by
  rw [commandOf, decodeCommand]
  split_ifs
  · exact .inl rfl
  · exact .inr (.inl rfl)
  · exact .inr (.inr (.inl rfl))
  · exact .inr (.inr (.inr rfl))

end Sys2Proof.Machine
end

