-- ==== Sys2Proof/Laws/Jobs.lean ====
section
/-! SUPPORT. When a step of a running job completes, and that it keeps what Safety.lean says of a running job. -/

namespace Sys2Proof.Machine

/-! ## COMPRESS -/

/-- A token step of COMPRESS completes where SRC has the input and DST has room for the token. -/
theorem compressToken_completes {s : State} (hp : s.work.p < s.work.N) (h1 : s.srcHas s.work.N = true)
    (h2 : s.dstHas (s.work.wp + 3) = true) : ∃ t, compressToken s = .next t := by
  have hb := search_bounds (src := s.src) hp.le
  have hml := searched_mlen (src := s.src) s.work hp.le
  have e1 : exec .mfSearch s = .next (s.setWork (s.work.searched (search s.src s.work.N s.work.p))) :=
    State.needSrc_of_has h1 _
  have e3 : ∀ u : State, u.dstHas (u.work.wp + 3) = true →
      ∃ t, andThen (exec .pack u) (fun s3 => .next s3.advanced) = .next t := by
    intro u hu
    rw [show exec .pack u = .next _ from State.needDst_of_has hu _]
    exact ⟨_, rfl⟩
  rw [compressToken, e1]
  show ∃ t, andThen (exec (emissionOp (s.work.searched (search s.src s.work.N s.work.p)))
    (s.setWork (s.work.searched (search s.src s.work.N s.work.p)))) _ = _
  by_cases hm : normalMode (s.work.searched (search s.src s.work.N s.work.p)) = true
  · obtain ⟨u, e2, hu⟩ : ∃ u, exec .encNormal (s.setWork (s.work.searched (search s.src s.work.N s.work.p))) = .next u ∧
        u.dstHas (u.work.wp + 3) = true := by
      refine ⟨_, (if_pos hm).trans (State.needSrc_of_has ?_ _), h2⟩
      refine State.srcHas_mono h1 ?_
      have hlt : s.work.p + (s.work.searched (search s.src s.work.N s.work.p)).mlen.toNat < s.work.N :=
        of_decide_eq_true hm
      simp only [normalLiteral, Working.searched_p, State.setWork_work]
      omega
    rw [show emissionOp _ = .encNormal from if_pos hm, e2]
    exact e3 _ hu
  · have hm' : boundaryMode (s.work.searched (search s.src s.work.N s.work.p)) = true := by
      simp only [normalMode, boundaryMode, Working.searched_p, Working.searched_N, hml, Bool.and_eq_true,
        decide_eq_true_eq] at hm ⊢
      omega
    obtain ⟨u, e2, hu⟩ : ∃ u, exec .encBoundary (s.setWork (s.work.searched (search s.src s.work.N s.work.p))) = .next u ∧
        u.dstHas (u.work.wp + 3) = true := by
      refine ⟨_, (if_pos hm').trans (State.needSrc_of_has ?_ _), h2⟩
      refine State.srcHas_mono h1 ?_
      simp only [boundaryLiteral, Working.searched_p, State.setWork_work, hml] at hm ⊢
      omega
    rw [show emissionOp _ = .encBoundary from if_neg hm, e2]
    exact e3 _ hu

/-- A step of a COMPRESS job never stops. -/
theorem Encoding.completes {s : State} (h : Encoding s) : ∃ t, compressStep s = .next t := by
  have h4 := h.dstCells
  rw [compressStep]
  split_ifs with h1 h2
  · exact ⟨_, State.needDst_of_has (State.dstHas_mono h4 (by rw [worstCaseOutput]; omega)) _⟩
  · refine compressToken_completes h2 h.srcCells (State.dstHas_mono h4 ?_)
    have h5 := h.progress
    simp only [worstCaseOutput, Config.headerBytes, Config.tokenBytes]
    omega
  · exact ⟨_, rfl⟩

/-- A step of a COMPRESS job that does not end it leaves a COMPRESS job. -/
theorem Encoding.next {s t : State} (h : Encoding s) (ht : compressStep s = .next t)
    (hb : t.phase = .busy) : Encoding t := by
  obtain ⟨e1, e2, e3, e4, e5⟩ := h
  rcases compressStep_eq_next ht with ⟨h1, -, rfl⟩ | ⟨h1, -, h3⟩ | ⟨-, -, rfl⟩
  · refine ⟨e1, e2, e3, e4, .inr ⟨0, rfl, ?_⟩⟩
    have hp : s.work.p = 0 := by
      rcases e5 with ⟨-, h⟩ | ⟨k, hk, -⟩
      · exact h
      · omega
    exact ⟨Nat.zero_le _, hp.le, by show s.work.p ≤ s.work.N; omega⟩
  · have ha := h3.adv
    have hl := t.work.tlen.isLt
    have hw := h3.wp
    have hp := h3.p
    have hN := h3.N
    have hle : t.work.p ≤ s.work.N := by
      rw [hp]
      cases h3.emitted <;> omega
    refine ⟨?_, ?_, ?_, ?_, ?_⟩
    · rw [h3.frame]
      show t.work.N = s.srcLen.toNat
      omega
    · omega
    · rw [h3.frame]
      show s.srcHas t.work.N = true
      rwa [hN]
    · rw [h3.frame]
      show s.dstHas (worstCaseOutput t.work.N) = true
      rwa [hN]
    · rcases e5 with ⟨h, -⟩ | ⟨k, hk, g1, g2, g3⟩
      · exact absurd h h1
      · exact .inr ⟨k + 1, by omega, by omega, by omega, by omega⟩
  · simp [State.finished] at hb

/-! ## DECOMPRESS -/

/-- A token's meaning never stops where DST has the cells below `N`. -/
theorem tokenStep_next {d : Dist} {n : Len} {l : Byte} {s : State} (h : s.dstHas s.work.N = true) :
    ∃ t, tokenStep d n l s = .next t := by
  rw [tokenStep]
  split_ifs with h1 h2
  · exact ⟨_, rfl⟩
  · exact ⟨_, rfl⟩
  · rw [State.needDst_of_has (State.dstHas_mono h (by omega))]
    exact ⟨_, rfl⟩

/-- A step of a DECOMPRESS job never stops. -/
theorem Decoding.completes {s : State} (h : Decoding s) : ∃ t, decompressStep s = .next t := by
  obtain ⟨e1, e2⟩ := h
  rw [decompressStep]
  split_ifs with h1 h2
  · rw [headerStep]
    split_ifs with h3
    · exact ⟨_, rfl⟩
    · rw [State.needSrc_of_has (State.srcHas_mono e1 (by omega))]
      show ∃ t, execHdr _ s = .next t
      simp only [execHdr]
      split_ifs
      · exact ⟨_, rfl⟩
      · exact ⟨_, rfl⟩
  · have hN : s.dstHas s.work.N = true := by
      rcases e2 with ⟨h, -⟩ | ⟨k, -, -, -, -, -, -, h⟩
      · exact absurd h h1
      · exact h
    rw [decompressToken]
    split_ifs with h3
    · exact ⟨_, rfl⟩
    · rw [State.needSrc_of_has (State.srcHas_mono e1 (by omega))]
      show ∃ t, exec (fetchedToken s) s.nextUnpacked = .next t
      rw [exec_fetchedToken]
      exact tokenStep_next hN
  · exact ⟨_, rfl⟩

/-- A step of a DECOMPRESS job that does not end it leaves a DECOMPRESS job. -/
theorem Decoding.next {s t : State} (h : Decoding s) (ht : decompressStep s = .next t)
    (hb : t.phase = .busy) : Decoding t := by
  obtain ⟨e1, e2⟩ := h
  rcases decompressStep_eq_next ht with ⟨-, -, rfl⟩ | ⟨h1, h2, -, h4⟩ | ⟨h1, -, h3⟩ | ⟨-, -, rfl⟩
  · simp [State.raised] at hb
  · rcases execHdr_eq_next h4 with ⟨g1, rfl⟩ | ⟨-, rfl⟩
    · have hn := (headerOfBytes (s.src.read 0) (s.src.read 1) (s.src.read 2) (s.src.read 3)).isLt
      have hc : s.work.cursor = 0 := by
        rcases e2 with ⟨-, h⟩ | ⟨k, hk, -⟩
        · exact h
        · omega
      refine ⟨e1, .inr ⟨0, rfl, h2, ?_⟩⟩
      simp only [State.setWork_work, Working.headed, hc, Config.nMax]
      exact ⟨by omega, by omega, by omega, by omega, g1⟩
    · simp [State.raised] at hb
  · rcases decompressToken_eq_next h3 with ⟨-, rfl⟩ | ⟨g1, -, g3⟩
    · simp [State.raised] at hb
    · rcases tokenStep_eq_next g3 with ⟨-, rfl⟩ | ⟨-, -, rfl⟩ | ⟨-, f2, -, rfl⟩
      · simp [State.raised] at hb
      · simp [State.raised] at hb
      · have hsp := span_bounds s.nextDist s.nextLen
        rcases e2 with ⟨h, -⟩ | ⟨k, hk, c1, c2, c3, c4, c5, c6⟩
        · exact absurd h h1
        · refine ⟨e1, .inr ⟨k + 1, ?_⟩⟩
          simp only [State.nextUnpacked, State.setWork_work, Working.tokenDone, Working.unpacked,
            Config.tokenBytes] at f2 ⊢
          exact ⟨by omega, g1, by omega, by omega, f2, c5, c6⟩
  · simp [State.finished] at hb

end Sys2Proof.Machine
end

