-- ==== Sys2Proof/Laws/PerInstr.lean ====
section
/-! SUPPORT. Statements made instruction by instruction, about the instruction as syntax. -/

namespace Sys2Proof

/-! ## The encoded length (30_encoding.md R90 to R92, R98) -/

/-- An instruction takes the bytes its format has: one for a command, four for a header, three for a token, none for an
internal operation. -/
def Laws.EncodedLength.Statement (i : Instr) : Prop :=
  (encode i).length =
    match i.format with
    | some .command => 1
    | some .header => Config.headerBytes
    | some .token => Config.tokenBytes
    | none => 0

theorem Laws.EncodedLength.compress : Laws.EncodedLength.Statement .compress := rfl

theorem Laws.EncodedLength.decompress : Laws.EncodedLength.Statement .decompress := rfl

theorem Laws.EncodedLength.cmdReserved0 : Laws.EncodedLength.Statement .cmdReserved0 := rfl

theorem Laws.EncodedLength.cmdReserved3 : Laws.EncodedLength.Statement .cmdReserved3 := rfl

theorem Laws.EncodedLength.hdr (n : HeaderWord) : Laws.EncodedLength.Statement (.hdr n) := rfl

theorem Laws.EncodedLength.lit (l : Byte) : Laws.EncodedLength.Statement (.lit l) := rfl

theorem Laws.EncodedLength.litx (tlen : Len) (l : Byte) : Laws.EncodedLength.Statement (.litx tlen l) := rfl

theorem Laws.EncodedLength.copy0 (tdist : Dist) (l : Byte) : Laws.EncodedLength.Statement (.copy0 tdist l) := rfl

theorem Laws.EncodedLength.copy (tdist : Dist) (tlen : Len) (l : Byte) :
    Laws.EncodedLength.Statement (.copy tdist tlen l) := rfl

theorem Laws.EncodedLength.mfSearch : Laws.EncodedLength.Statement .mfSearch := rfl

theorem Laws.EncodedLength.encHdr : Laws.EncodedLength.Statement .encHdr := rfl

theorem Laws.EncodedLength.encNormal : Laws.EncodedLength.Statement .encNormal := rfl

theorem Laws.EncodedLength.encBoundary : Laws.EncodedLength.Statement .encBoundary := rfl

theorem Laws.EncodedLength.pack : Laws.EncodedLength.Statement .pack := rfl

theorem Laws.EncodedLength.unpack (b0 b1 b2 : Byte) : Laws.EncodedLength.Statement (.unpack b0 b1 b2) := rfl

end Sys2Proof
end

