-- ==== Sys2Proof/Tests/Slice0.lean ====
section
/-! SUPPORT. Small tests: ill-formed terms, words written out from the encodings, one step each from the vectors of
95_test_vectors.md (named P, M, S, T, H as there), and for each obligation with hypotheses a machine that meets them. -/

namespace Sys2Proof.Tests

open Sys2Proof.Machine

/-! ## Helpers -/

/-- A next state with a property. -/
def after (o : Host.Outcome State Fault Refusal) (f : State → Bool) : Bool :=
  match o with
  | .next s => f s
  | .fault _ => false
  | .refused _ => false

/-- The machine after reset with bytes in SRC and their number in SRC_LEN. -/
def loaded (bytes : List Byte) : State :=
  { State.reset with src := Memory.writeBytes [] 0 bytes, srcLen := BitVec.ofNat 64 bytes.length }

/-- A COMPRESS job at `p`, about to write at `wp`. -/
def encoder (bytes : List Byte) (p wp : Nat) : State :=
  { loaded bytes with
    phase := .busy, op := .compress, work := { Working.reset with N := bytes.length, p := p, wp := wp } }

/-- A DECOMPRESS job of length `n` at `rp`, its output so far given. -/
def decoder (bytes : List Byte) (n rp : Nat) (out : List Byte) : State :=
  { loaded bytes with
    phase := .busy, op := .decompress, dst := Memory.writeBytes [] 0 out,
    work := { Working.reset with N := n, cursor := out.length, rp := rp } }

/-- The same machine with a finite DST. -/
def withDstCap (s : State) (n : Nat) : State := { s with cfg := { s.cfg with dstCap := some n } }

/-- The same machine with a finite SRC. -/
def withSrcCap (s : State) (n : Nat) : State := { s with cfg := { s.cfg with srcCap := some n } }

/-- The same machine under R74's reading of a write of SRC_LEN while BUSY (log 24). -/
def withoutBusyWrites (s : State) : State := { s with cfg := { s.cfg with srcLenWhileBusy := .noMove } }

/-- A machine whose last job raised `Overrun` (T9). -/
def overran : State :=
  { State.reset with
    phase := .fault, op := .decompress, cause := .malformedStream .overrun, outLen := 1, inPos := 7 }

/-- `ABCABC`, the input of S1. -/
def abcabc : List Byte := [0x41, 0x42, 0x43, 0x41, 0x42, 0x43]

/-- The output of S1, the stream of T1. -/
def abcabcStream : List Byte := [6, 0, 0, 0, 0, 0, 0x41, 0, 0, 0x42, 0, 0, 0x43, 0x32, 0, 0x43]

/-! ## Well-formedness: the classes' conditions refuse -/

theorem test_litx_without_length_is_ill_formed : (Instr.litx 0 0x41).wellFormed = false := by decide

theorem test_copy0_without_distance_is_ill_formed : (Instr.copy0 0 0x41).wellFormed = false := by decide

theorem test_copy_without_distance_is_ill_formed : (Instr.copy 0 5 0x41).wellFormed = false := by decide

theorem test_copy_without_length_is_ill_formed : (Instr.copy 5 0 0x41).wellFormed = false := by decide

/-! ## Decoding: words written out from R91, R92, R98 and the vectors P -/

/-- R98: code 1, whatever the other bits. -/
theorem test_decode_compress : decode .command [0b00000001#8] = .ok .compress [] ∧
    decode .command [0b11111101#8] = .ok .compress [] := by decide

/-- R98: code 2. -/
theorem test_decode_decompress : decode .command [0b00000010#8] = .ok .decompress [] := by decide

/-- R98: code 0. -/
theorem test_decode_reserved0 : decode .command [0b00000000#8] = .ok .cmdReserved0 [] := by decide

/-- R98: code 3. -/
theorem test_decode_reserved3 : decode .command [0b00000011#8] = .ok .cmdReserved3 [] := by decide

/-- R91: byte 0 is `N[7:0]`. -/
theorem test_decode_hdr : decode .header [0x10#8, 0x27#8, 0x00#8, 0x00#8, 0xAA#8] = .ok (.hdr 10000#32) [0xAA#8] := by
  decide

/-- P1. -/
theorem test_decode_lit : decode .token [0x00#8, 0x00#8, 0x41#8] = .ok (.lit 0x41#8) [] := by decide

/-- P13. -/
theorem test_decode_litx : decode .token [0x0F#8, 0x00#8, 0x41#8] = .ok (.litx 15#4 0x41#8) [] := by decide

/-- P3 and P14. -/
theorem test_decode_copy0 : decode .token [0x10#8, 0x00#8, 0x41#8] = .ok (.copy0 1#12 0x41#8) [] ∧
    decode .token [0x00#8, 0x80#8, 0x80#8] = .ok (.copy0 2048#12 0x80#8) [] := by decide

/-- P10 and P11, the fields cut across the bytes. -/
theorem test_decode_copy : decode .token [0x34#8, 0x12#8, 0x56#8] = .ok (.copy 0x123#12 4#4 0x56#8) [] ∧
    decode .token [0xFE#8, 0xFF#8, 0x21#8] = .ok (.copy 4095#12 14#4 0x21#8) [] := by decide

/-- P9, the other direction. -/
theorem test_encode_copy : encode (.copy 256 1 0x7F) = [0x01#8, 0x10#8, 0x7F#8] := by decide

/-- Too few bytes are refused by name. -/
theorem test_decode_refuses_short : decode .token [0x00#8, 0x00#8] = .error .tokenTooShort ∧
    decode .header [0x02#8, 0x00#8, 0x00#8] = .error .headerTooShort := by decide

/-- The opcode table's numbering: bit 0 is the least significant bit of the first byte. -/
theorem test_table_words : decodeTableWord 2 1 = some .compress ∧ decodeTableWord 32 0x12345678 = some (.hdr 0x12345678) ∧
    decodeTableWord 24 0x561234 = some (.copy 0x123 4 0x56) := by decide

/-- R105, R106: the text of a token. -/
theorem test_text : (Instr.copy 3 2 0x43).text = some "TOK 3, 2, 67" ∧
    (Instr.copy 3 2 0x43).pseudoText = some "COPY 3, 2, 67" := by decide

/-! ## One step each -/

/-- S1: the job starts. -/
theorem test_compress_starts : after (exec .compress (loaded abcabc)) (fun t =>
    t.phase = .busy ∧ t.op = .compress ∧ t.work.N = 6 ∧ t.work.p = 0) = true := by decide

/-- H7: 2^32 bytes are too many; STATUS = 0x7, CAUSE = 0x02. -/
theorem test_compress_too_large : after (exec .compress { State.reset with srcLen := 0x100000000 }) (fun t =>
    t.statusWord = 0x7 ∧ t.causeWord = 0x02 ∧ t.outLen = 0 ∧ t.inPos = 0) = true := by decide

/-- H5: a command while BUSY has no effect. -/
theorem test_decompress_while_busy : after (exec .decompress (encoder abcabc 3 13)) (fun t =>
    t = encoder abcabc 3 13) = true := by decide

/-- H5: a write of SRC_LEN while BUSY is ignored; under R74's reading there is no such move. -/
theorem test_write_src_len_while_busy :
    after (hostWriteSrcLen 5 (encoder abcabc 3 13)) (fun t => t = encoder abcabc 3 13) = true ∧
    after (hostWriteSrcLen 5 (withoutBusyWrites (encoder abcabc 3 13))) (fun _ => true) = false := by decide

/-- D5: a command is accepted in FAULT and clears CAUSE. -/
theorem test_decompress_after_fault :
    after (exec .decompress overran) (fun t =>
      t.phase = .busy ∧ t.op = .decompress ∧ t.causeWord = 0 ∧ t.outLen = 0 ∧ t.inPos = 0) = true := by decide

/-- H4. -/
theorem test_reserved_codes : after (exec .cmdReserved0 (loaded abcabc)) (fun t => t = loaded abcabc) = true ∧
    after (exec .cmdReserved3 (loaded abcabc)) (fun t => t = loaded abcabc) = true := by decide

/-- H10: `N = 6 > DST_CAP = 5`; STATUS = 0xB, CAUSE = 0x03, IN_POS = 4. -/
theorem test_hdr_too_large : after (step (withDstCap (decoder abcabcStream 0 0 []) 5)) (fun t =>
    t.statusWord = 0xB ∧ t.causeWord = 0x03 ∧ t.outLen = 0 ∧ t.inPos = 4) = true := by decide

/-- H11: `DST_CAP = 6` is enough. -/
theorem test_hdr : after (step (withDstCap (decoder abcabcStream 0 0 []) 6)) (fun t =>
    t.phase = .busy ∧ t.work.N = 6 ∧ t.work.rp = 4) = true := by decide

/-- T18, its second token. -/
theorem test_lit : after (exec (.lit 0x42) (decoder [] 2 7 [0x41])) (fun t =>
    t.dst.readBytes 0 3 = [0x41, 0x42, 0x00] ∧ t.work.cursor = 2 ∧ t.work.rp = 10) = true := by decide

/-- T15: `tlen = 5` is ignored. -/
theorem test_litx : after (exec (.litx 5 0x41) (decoder [] 1 4 [])) (fun t =>
    t.dst.readBytes 0 2 = [0x41, 0x00] ∧ t.work.cursor = 1) = true := by decide

/-- T6: `tdist = cursor` is legal. -/
theorem test_copy0 : after (exec (.copy0 1 0x42) (decoder [] 2 7 [0x41])) (fun t =>
    t.dst.readBytes 0 3 = [0x41, 0x42, 0x00] ∧ t.work.cursor = 2) = true := by decide

/-- T8: `tdist = 2 > cursor = 1`. -/
theorem test_copy0_back_reference : after (exec (.copy0 2 0x42) (decoder [] 2 7 [0x41])) (fun t =>
    t.causeWord = 0x11 ∧ t.outLen = 1 ∧ t.inPos = 7) = true := by decide

/-- T3: an overlapping copy of period 2. -/
theorem test_copy_overlap : after (exec (.copy 2 7 0x42) (decoder [] 10 10 [0x41, 0x42])) (fun t =>
    t.dst.readBytes 0 11 = [0x41, 0x42, 0x41, 0x42, 0x41, 0x42, 0x41, 0x42, 0x41, 0x42, 0x00] ∧ t.work.cursor = 10 ∧
    t.work.rp = 13) = true := by decide

/-- T21: both conditions hold; BackRefBeforeStart is reported and nothing is written. -/
theorem test_copy_order_of_checks :
    after (exec (.copy 5 2 0x44) (decoder [] 5 13 [0x41, 0x42, 0x41, 0x43])) (fun t =>
      t.causeWord = 0x11 ∧ t.outLen = 4 ∧ t.inPos = 13 ∧ t.dst.read 4 = 0) = true := by decide

/-- T10: the copy would end at `N`, the literal beyond it. -/
theorem test_copy_overrun : after (exec (.copy 1 2 0x41) (decoder [] 3 7 [0x41])) (fun t =>
    t.causeWord = 0x21 ∧ t.outLen = 1 ∧ t.inPos = 7 ∧ t.dst.read 1 = 0) = true := by decide

/-- T13: the stream ends inside a token. -/
theorem test_truncated : after (step (decoder [2, 0, 0, 0, 0, 0, 0x41, 0, 0] 2 7 [0x41])) (fun t =>
    t.causeWord = 0x31 ∧ t.outLen = 1 ∧ t.inPos = 7) = true := by decide

/-- P11. -/
theorem test_unpack : after (exec (.unpack 0xFE 0xFF 0x21) State.reset) (fun t =>
    t.work.word = 0xFFFE ∧ t.work.tdist = 4095 ∧ t.work.tlen = 14 ∧ t.work.lit = 0x21) = true := by decide

/-- M4: of `d = 3` and `d = 6`, equally long, the smaller. -/
theorem test_search_tie : after (exec .mfSearch
    (encoder [0x41, 0x42, 0x78, 0x41, 0x42, 0x79, 0x41, 0x42, 0x7A] 6 22)) (fun t =>
    t.work.mdist = 3 ∧ t.work.mlen = 2) = true := by decide

/-- M5: a strictly longer match further back replaces a nearer one. -/
theorem test_search_longest : after (exec .mfSearch
    (encoder [0x41, 0x42, 0x43, 0x44, 0x41, 0x42, 0x78, 0x41, 0x42, 0x43, 0x44, 0x79] 7 19)) (fun t =>
    t.work.mdist = 7 ∧ t.work.mlen = 4) = true := by decide

/-- S13's header: `10 27 00 00`. -/
theorem test_enc_hdr : after (exec .encHdr { State.reset with work := { Working.reset with N := 10000 } }) (fun t =>
    t.dst.readBytes 0 4 = [0x10, 0x27, 0x00, 0x00] ∧ t.work.wp = 4) = true := by decide

/-- S5, N = 17, p = 1: found (1,15), normal mode with the last `A` as literal. -/
theorem test_enc_normal : after (step (encoder (List.replicate 17 0x41) 1 7)) (fun t =>
    t.dst.readBytes 7 3 = [0x1F, 0x00, 0x41] ∧ t.work.p = 17 ∧ t.work.adv = 16) = true := by decide

/-- S5, N = 16, p = 1: found (1,15), boundary mode. -/
theorem test_enc_boundary : after (step (encoder (List.replicate 16 0x41) 1 7)) (fun t =>
    t.dst.readBytes 7 3 = [0x1E, 0x00, 0x41] ∧ t.work.p = 16 ∧ t.work.adv = 15) = true := by decide

/-- S1, p = 3: the last token. -/
theorem test_pack : after (step (encoder abcabc 3 13)) (fun t =>
    t.dst.readBytes 13 3 = [0x32, 0x00, 0x43] ∧ t.work.wp = 16 ∧ t.work.p = 6) = true := by decide

/-- H1: the host-visible registers after reset. -/
theorem test_reset : State.reset.statusWord = 0 ∧ State.reset.causeWord = 0 ∧ State.reset.regWord .outLen = 0 ∧
    State.reset.regWord .inPos = 0 ∧ State.reset.regWord .srcLen = 0 ∧ State.reset.regWord .cmd = 0 := by decide

/-- A placed token, header and command are what the next step runs. -/
theorem test_with_fetch_word :
    after (step (State.reset.withFetchWord 24 0x410000)) (fun t => t.dst.read 0 = 0x41 ∧ t.work.cursor = 1) = true ∧
    after (step (State.reset.withFetchWord 32 0x12345678)) (fun t => t.work.N = 0x12345678 ∧ t.work.rp = 4) = true ∧
    after (step (State.reset.withFetchWord 2 2)) (fun t => t.phase = .busy ∧ t.op = .decompress) = true := by decide

/-! ## Machines that meet the obligations' hypotheses

One theorem per obligation that has hypotheses, in the order of the obligations; where there are several clauses, one
machine for each, at the boundary. -/

theorem witness_DecodeOfEncodeIsTheInstruction :
    (Instr.copy 1 1 0).wellFormed = true ∧ (Instr.copy 1 1 0).format = some .token ∧
    (Instr.hdr 0xFFFFFFFF).wellFormed = true ∧ (Instr.hdr 0xFFFFFFFF).format = some .header ∧
    Instr.cmdReserved3.wellFormed = true ∧ Instr.cmdReserved3.format = some .command := by decide

/-- P12, for the last clause. -/
theorem witness_PackAndUnpackAreInverse : tokenBytes 4095 15 0xFF = tokenBytes 4095 15 0xFF := by decide

theorem witness_CommandCodeIsTheTwoLowBits :
    (0xFFFFFFFFFFFFFFFC#64).toNat % 4 = 0 ∧ (0x101#64).toNat % 4 = 1 ∧ (6#64).toNat % 4 = 2 ∧
    (0xFFFFFFFFFFFFFFFF#64).toNat % 4 = 3 := by decide

/-- H9: `22 > 22` is false. -/
theorem witness_CompressStartsItsJob :
    (withDstCap (loaded abcabc) 22).phase ≠ .busy ∧
    (withDstCap (loaded abcabc) 22).srcHas (withDstCap (loaded abcabc) 22).srcLen.toNat = true ∧
    (withDstCap (loaded abcabc) 22).srcLen.toNat ≤ 4294967295 ∧
    (withDstCap (loaded abcabc) 22).dstHas (4 + 3 * (withDstCap (loaded abcabc) 22).srcLen.toNat) = true := by decide

theorem witness_DecompressStartsItsJob :
    overran.phase ≠ .busy ∧ overran.srcHas overran.srcLen.toNat = true := by decide

/-- H7, and H9's neighbour with one cell less. -/
theorem witness_CompressRaisesInputTooLarge :
    (4294967295 < ({ State.reset with srcLen := 0x100000000 } : State).srcLen.toNat ∧
      ({ State.reset with srcLen := 0x100000000 } : State).phase ≠ .busy ∧
      ({ State.reset with srcLen := 0x100000000 } : State).srcHas 0x100000000 = true) ∧
    ((withDstCap (loaded abcabc) 21).dstHas (4 + 3 * (withDstCap (loaded abcabc) 21).srcLen.toNat) = false ∧
      (withDstCap (loaded abcabc) 21).phase ≠ .busy ∧
      (withDstCap (loaded abcabc) 21).srcHas (withDstCap (loaded abcabc) 21).srcLen.toNat = true) := by decide

theorem witness_CommandsWithoutEffect : (encoder abcabc 3 13).phase = .busy := by decide

theorem witness_JobBeyondSrcCapIsRefused :
    (withSrcCap (loaded abcabc) 5).phase ≠ .busy ∧
    (withSrcCap (loaded abcabc) 5).srcHas (withSrcCap (loaded abcabc) 5).srcLen.toNat = false := by decide

theorem witness_HdrSetsTheLength : (withDstCap State.reset 6).dstHas (6 : HeaderWord).toNat = true := by decide

theorem witness_HdrRaisesOutputTooLarge : (withDstCap State.reset 5).dstHas (6 : HeaderWord).toNat = false := by decide

/-- COPY0's clause at `tdist = cursor`, and room for one byte only. -/
theorem witness_LiteralTokensAppendOneByte :
    (1 : Dist).toNat ≤ (withDstCap (decoder [] 2 7 [0x41]) 2).work.cursor ∧
    (withDstCap (decoder [] 2 7 [0x41]) 2).work.cursor < (withDstCap (decoder [] 2 7 [0x41]) 2).work.N ∧
    (withDstCap (decoder [] 2 7 [0x41]) 2).dstHas ((withDstCap (decoder [] 2 7 [0x41]) 2).work.cursor + 1) = true := by
  decide

/-- T11: the token ends exactly at `N`, its distance is the whole output. -/
theorem witness_CopyRepeatsTheLastBytes :
    1 ≤ (1 : Dist).toNat ∧ 1 ≤ (2 : Len).toNat ∧ (1 : Dist).toNat ≤ (decoder [] 4 7 [0x41]).work.cursor ∧
    (decoder [] 4 7 [0x41]).work.cursor + (2 : Len).toNat + 1 ≤ (decoder [] 4 7 [0x41]).work.N ∧
    (decoder [] 4 7 [0x41]).dstHas ((decoder [] 4 7 [0x41]).work.cursor + (2 : Len).toNat + 1) = true := by decide

/-- T8: one more than the output. -/
theorem witness_BackReferenceBeforeStartRaises : (decoder [] 2 7 [0x41]).work.cursor < (2 : Dist).toNat := by decide

/-- T10, T11's neighbour. -/
theorem witness_OverrunRaises :
    1 ≤ (1 : Dist).toNat ∧ (1 : Dist).toNat ≤ (decoder [] 3 7 [0x41]).work.cursor ∧
    (decoder [] 3 7 [0x41]).work.N - (decoder [] 3 7 [0x41]).work.cursor ≤ (2 : Len).toNat := by decide

/-- T14 and T13: one byte short of a header, and of a token. -/
theorem witness_TruncatedStreamRaises :
    ((decoder [2, 0, 0] 0 0 []).work.rp = 0 ∧ (decoder [2, 0, 0] 0 0 []).srcLen.toNat < 4 ∧
      (decoder [2, 0, 0] 0 0 []).inputs = [] ∧ (decoder [2, 0, 0] 0 0 []).phase = .busy ∧
      (decoder [2, 0, 0] 0 0 []).op = .decompress) ∧
    ((decoder [2, 0, 0, 0, 0, 0, 0x41, 0, 0] 2 7 [0x41]).work.rp ≠ 0 ∧
      (decoder [2, 0, 0, 0, 0, 0, 0x41, 0, 0] 2 7 [0x41]).work.cursor <
        (decoder [2, 0, 0, 0, 0, 0, 0x41, 0, 0] 2 7 [0x41]).work.N ∧
      (decoder [2, 0, 0, 0, 0, 0, 0x41, 0, 0] 2 7 [0x41]).srcLen.toNat <
        (decoder [2, 0, 0, 0, 0, 0, 0x41, 0, 0] 2 7 [0x41]).work.rp + 3) := by decide

/-- M2 and M12: a search that finds and one that does not; and a length that is `L(3)` in M2. -/
theorem witness_SearchFindsTheLongestNearestMatch :
    ((encoder abcabc 3 13).work.p < (encoder abcabc 3 13).work.N ∧
      (encoder abcabc 3 13).srcHas (encoder abcabc 3 13).work.N = true ∧
      after (exec .mfSearch (encoder abcabc 3 13)) (fun t => t.work.mlen = 3 ∧ t.work.mdist = 3) = true ∧
      IsCandidateLen (encoder abcabc 3 13).src 6 3 3 3) ∧
    after (exec .mfSearch (encoder [0x41, 0x42] 1 7)) (fun t => t.work.mlen = 0) = true := by
  refine ⟨⟨by decide, by decide, by decide, ⟨by decide, ?_⟩, ?_⟩, by decide⟩
  · unfold Matches
    decide
  · intro k hk _
    omega

theorem witness_EncHdrWritesTheLength :
    (withDstCap { State.reset with work := { Working.reset with N := 4294967295 } } 4).dstHas 4 = true ∧
    (withDstCap { State.reset with work := { Working.reset with N := 4294967295 } } 4).work.N ≤ 4294967295 := by decide

/-- `p + mlen = N - 1`, and SRC ends with the literal. -/
theorem witness_EncNormalEmitsMatchAndNextByte :
    (withSrcCap (encoder abcabc 5 16) 6).work.p + (withSrcCap (encoder abcabc 5 16) 6).work.mlen.toNat <
      (withSrcCap (encoder abcabc 5 16) 6).work.N ∧
    (withSrcCap (encoder abcabc 5 16) 6).srcHas
      ((withSrcCap (encoder abcabc 5 16) 6).work.p + (withSrcCap (encoder abcabc 5 16) 6).work.mlen.toNat + 1) =
      true := by decide

/-- After M2's search: `p + mlen = N`. -/
def searched : State :=
  (encoder abcabc 3 13).setWork { (encoder abcabc 3 13).work with mdist := 3, mlen := 3 }

theorem witness_EncBoundaryGivesUpTheLastByte :
    1 ≤ searched.work.mlen.toNat ∧ searched.work.p + searched.work.mlen.toNat = searched.work.N ∧
    searched.srcHas searched.work.N = true := by decide

/-- One clause each: `p + mlen = N`; `mlen = 0`; `p + mlen = N - 1`. -/
theorem witness_EmissionModesKeepToTheirCondition :
    searched.work.N ≤ searched.work.p + searched.work.mlen.toNat ∧
    (encoder abcabc 6 16).work.mlen.toNat = 0 ∧
    (encoder abcabc 5 16).work.p + (encoder abcabc 5 16).work.mlen.toNat ≠ (encoder abcabc 5 16).work.N := by decide

theorem witness_PackAppendsTheToken :
    (withDstCap (encoder abcabc 3 13) 16).dstHas ((withDstCap (encoder abcabc 3 13) 16).work.wp + 3) = true := by decide

/-- S1: p = 3 is a boundary step, p = 2 a normal one. -/
theorem witness_EmittedTokenDescribesTheInput :
    ((encoder abcabc 3 13).inputs = [] ∧ (encoder abcabc 3 13).phase = .busy ∧ (encoder abcabc 3 13).op = .compress ∧
      (encoder abcabc 3 13).work.wp ≠ 0 ∧ (encoder abcabc 3 13).work.p < (encoder abcabc 3 13).work.N ∧
      (encoder abcabc 3 13).srcHas (encoder abcabc 3 13).work.N = true ∧
      (encoder abcabc 3 13).dstHas ((encoder abcabc 3 13).work.wp + 3) = true ∧
      after (step (encoder abcabc 3 13)) (fun t => 6 ≤ 3 + t.work.mlen.toNat) = true) ∧
    ((encoder abcabc 2 10).work.p < (encoder abcabc 2 10).work.N ∧
      (encoder abcabc 2 10).dstHas ((encoder abcabc 2 10).work.wp + 3) = true ∧
      after (step (encoder abcabc 2 10)) (fun t => 2 + t.work.mlen.toNat < 6) = true) := by decide

/-- T1's last token. -/
theorem witness_StepRunsTheDecodedToken :
    (decoder abcabcStream 6 13 [0x41, 0x42, 0x43]).inputs = [] ∧
    (decoder abcabcStream 6 13 [0x41, 0x42, 0x43]).phase = .busy ∧
    (decoder abcabcStream 6 13 [0x41, 0x42, 0x43]).op = .decompress ∧
    (decoder abcabcStream 6 13 [0x41, 0x42, 0x43]).work.rp ≠ 0 ∧
    (decoder abcabcStream 6 13 [0x41, 0x42, 0x43]).work.cursor <
      (decoder abcabcStream 6 13 [0x41, 0x42, 0x43]).work.N ∧
    (decoder abcabcStream 6 13 [0x41, 0x42, 0x43]).work.rp + 3 ≤
      (decoder abcabcStream 6 13 [0x41, 0x42, 0x43]).srcLen.toNat ∧
    (decoder abcabcStream 6 13 [0x41, 0x42, 0x43]).srcHas
      ((decoder abcabcStream 6 13 [0x41, 0x42, 0x43]).work.rp + 3) = true ∧
    decode .token ((decoder abcabcStream 6 13 [0x41, 0x42, 0x43]).src.readBytes 13 3) = .ok (.copy 3 2 0x43) [] := by
  decide

theorem witness_StepRunsTheDecodedHeader :
    (decoder abcabcStream 0 0 []).inputs = [] ∧ (decoder abcabcStream 0 0 []).phase = .busy ∧
    (decoder abcabcStream 0 0 []).op = .decompress ∧ (decoder abcabcStream 0 0 []).work.rp = 0 ∧
    4 ≤ (decoder abcabcStream 0 0 []).srcLen.toNat ∧ (decoder abcabcStream 0 0 []).srcHas 4 = true ∧
    decode .header ((decoder abcabcStream 0 0 []).src.readBytes 0 4) = .ok (.hdr 6) [] := by decide

theorem witness_StepRunsTheCommandWritten :
    ((loaded abcabc).withCommand 1).inputs = [.writeCmd 1] ∧
    decode .command [(1 : Reg64).setWidth 8] = .ok .compress [] := by decide

/-- The header is due; and S1's first token, whose three operations complete. -/
theorem witness_StepRunsTheEncoder :
    ((encoder abcabc 0 0).inputs = [] ∧ (encoder abcabc 0 0).phase = .busy ∧ (encoder abcabc 0 0).op = .compress ∧
      (encoder abcabc 0 0).work.wp = 0) ∧
    ((encoder abcabc 0 4).work.wp ≠ 0 ∧ (encoder abcabc 0 4).work.p < (encoder abcabc 0 4).work.N ∧
      after (exec .mfSearch (encoder abcabc 0 4)) (fun s1 =>
        s1.work.p + s1.work.mlen.toNat < s1.work.N ∧
        after (exec .encNormal s1) (fun s2 => after (exec .pack s2) (fun _ => true)) = true) = true) := by decide

theorem witness_JobEndsNormally :
    ((encoder abcabc 6 16).inputs = [] ∧ (encoder abcabc 6 16).phase = .busy ∧ (encoder abcabc 6 16).op = .compress ∧
      (encoder abcabc 6 16).work.wp ≠ 0 ∧ (encoder abcabc 6 16).work.N ≤ (encoder abcabc 6 16).work.p) ∧
    ((decoder abcabcStream 6 16 (abcabc)).inputs = [] ∧ (decoder abcabcStream 6 16 abcabc).phase = .busy ∧
      (decoder abcabcStream 6 16 abcabc).op = .decompress ∧ (decoder abcabcStream 6 16 abcabc).work.rp ≠ 0 ∧
      (decoder abcabcStream 6 16 abcabc).work.N ≤ (decoder abcabcStream 6 16 abcabc).work.cursor) := by decide

/-- The move before another: a next state with no move pending, the next state with the move, and the fault of a machine
that is BUSY without a job. -/
theorem witness_CoreMoveIsACoreTurn :
    { encoder abcabc 3 13 with inputs := [.core, .reset] }.inputs = .core :: [.reset] ∧
    after (step { encoder abcabc 3 13 with inputs := [] }) (fun t => t.work.p = 6) = true ∧
    after (step { encoder abcabc 3 13 with inputs := [.core, .reset] }) (fun t =>
      t.work.p = 6 ∧ t.inputs = [.reset]) = true ∧
    step { State.reset with phase := .busy } = .fault .busyWithoutJob :=
  ⟨by decide, by decide, by decide, rfl⟩

theorem witness_CoreIsStillOutsideBusy : overran.inputs = [] ∧ overran.phase ≠ .busy := by decide

/-- A COMPRESS job in its middle meets the invariant. -/
theorem encoder_meets_the_invariant : Inv (encoder abcabc 3 13) where
  srcWf := by decide
  dstWf := by decide
  srcCells _ _ := rfl
  dstCells _ _ := rfl
  cause := by decide
  op := by decide
  cleared := by decide
  raiser := by decide
  encoding _ _ := ⟨by decide, by decide, rfl, rfl, .inr ⟨3, by decide⟩⟩
  decoding _ h := absurd h (by decide)
  encoded h := absurd h (by decide)
  decoded h := absurd h (by decide)

/-- A COMPRESS job before its header meets the invariant. -/
theorem encoder_start_meets_the_invariant : Inv (encoder abcabc 0 0) where
  srcWf := by decide
  dstWf := by decide
  srcCells _ _ := rfl
  dstCells _ _ := rfl
  cause := by decide
  op := by decide
  cleared := by decide
  raiser := by decide
  encoding _ _ := ⟨by decide, by decide, rfl, rfl, .inl (by decide)⟩
  decoding _ h := absurd h (by decide)
  encoded h := absurd h (by decide)
  decoded h := absurd h (by decide)

/-- A DECOMPRESS job before its header meets the invariant. -/
theorem decoder_start_meets_the_invariant : Inv (decoder abcabcStream 0 0 []) where
  srcWf := by decide
  dstWf := by decide
  srcCells _ _ := rfl
  dstCells _ _ := rfl
  cause := by decide
  op := by decide
  cleared := by decide
  raiser := by decide
  encoding _ h := absurd h (by decide)
  decoding _ _ := ⟨rfl, .inl (by decide)⟩
  encoded h := absurd h (by decide)
  decoded h := absurd h (by decide)

theorem witness_StepKeepsTheInvariant :
    Inv (encoder abcabc 3 13) ∧ after (step (encoder abcabc 3 13)) (fun _ => true) = true :=
  ⟨encoder_meets_the_invariant, by decide⟩

theorem witness_CoreTurnNeverStops : Inv (encoder abcabc 3 13) ∧ (encoder abcabc 3 13).inputs = [] :=
  ⟨encoder_meets_the_invariant, by decide⟩

/-- Other bytes above the input and above the output so far: both turns of the core go on. -/
theorem witness_CoreTurnReadsOnlyItsInput :
    Inv (encoder abcabc 3 13) ∧ after (coreStep (encoder abcabc 3 13)) (fun t => t.work.p = 6) = true ∧
    (∀ a, a < (encoder abcabc 3 13).srcLen.toNat →
      ((encoder abcabc 3 13).src.write 6 0x43).read a = (encoder abcabc 3 13).src.read a) ∧
    (∀ a, a < (encoder abcabc 3 13).outPointer →
      ((encoder abcabc 3 13).dst.write 13 0xFF).read a = (encoder abcabc 3 13).dst.read a) :=
  ⟨encoder_meets_the_invariant, by decide, by decide, by decide⟩

theorem witness_CompressEndsDone :
    Inv (encoder abcabc 0 0) ∧ (encoder abcabc 0 0).inputs = [] ∧ (encoder abcabc 0 0).phase = .busy ∧
    (encoder abcabc 0 0).op = .compress ∧ (encoder abcabc 0 0).work.wp = 0 :=
  ⟨encoder_start_meets_the_invariant, by decide⟩

theorem witness_DecompressEnds :
    Inv (decoder abcabcStream 0 0 []) ∧ (decoder abcabcStream 0 0 []).inputs = [] ∧
    (decoder abcabcStream 0 0 []).phase = .busy ∧ (decoder abcabcStream 0 0 []).op = .decompress ∧
    (decoder abcabcStream 0 0 []).work.rp = 0 :=
  ⟨decoder_start_meets_the_invariant, by decide⟩

/-- S4 and its stream: the input, and a machine that has the output as its input and just enough room. -/
theorem witness_RoundTripRestoresTheInput :
    (Ready (loaded [0x41]) ∧ (loaded [0x41]).srcLen.toNat ≤ 4294967295 ∧
      (loaded [0x41]).srcHas (loaded [0x41]).srcLen.toNat = true ∧
      (loaded [0x41]).dstHas (4 + 3 * (loaded [0x41]).srcLen.toNat) = true) ∧
    (Ready (withDstCap (loaded [1, 0, 0, 0, 0, 0, 0x41]) 1) ∧
      (withDstCap (loaded [1, 0, 0, 0, 0, 0, 0x41]) 1).dstHas (loaded [0x41]).srcLen.toNat = true ∧
      after (run 4 ((loaded [0x41]).withCommand 1)) (fun t =>
        t.phase = .done ∧ (withDstCap (loaded [1, 0, 0, 0, 0, 0, 0x41]) 1).srcLen = t.outLen ∧
        ∀ a, a < t.outLen.toNat → (withDstCap (loaded [1, 0, 0, 0, 0, 0, 0x41]) 1).src.read a = t.dst.read a) = true) :=
  ⟨⟨⟨by decide, by decide⟩, by decide⟩, ⟨by decide, by decide⟩, by decide⟩

/-- Two machines alike in their input alone: one fresh, one after a fault and with other bytes in DST. -/
theorem witness_JobDependsOnlyOnItsInput :
    Ready (loaded [0x41]) ∧ Ready { overran with src := (loaded [0x41]).src, srcLen := 1, dst := [(0, 7)] } ∧
    commandOf 1 = .compress ∧
    after (run 4 ((loaded [0x41]).withCommand 1)) (fun t => t.phase = .done ∧ t.outLen = 7) = true :=
  ⟨⟨by decide, by decide⟩, ⟨by decide, by decide⟩, by decide, by decide⟩

theorem witness_CoreTurnLeavesItsInputAlone :
    after (coreStep (encoder abcabc 3 13)) (fun t => t.work.p = 6) = true := by decide

theorem witness_OutputIsAppendOnly :
    after (coreStep (encoder abcabc 3 13)) (fun t => t.outPointer = 16) = true := by decide

/-- The header's condition, and a token's. -/
theorem witness_ConditionsArePrecise :
    ((decoder abcabcStream 0 0 []).phase = .busy ∧
      after (coreStep (withDstCap (decoder abcabcStream 0 0 []) 5)) (fun t => t.phase = .fault) = true) ∧
    after (coreStep (decoder [2, 0, 0] 0 0 [])) (fun t => t.phase = .fault) = true := by decide

/-- One step of each kind: none changes the report registers but a transition. -/
theorem witness_ReportRegistersChangeOnlyByTransition :
    after (step (encoder abcabc 3 13)) (fun t => t.phase = .busy) = true ∧
    after (step { encoder abcabc 3 13 with inputs := [.reset] }) (fun t => t.phase = .idle) = true ∧
    after (step ((loaded abcabc).withCommand 1)) (fun t => t.phase = .busy) = true ∧
    after (step (encoder abcabc 6 16)) (fun t => t.phase = .done) = true := by decide

theorem witness_ParametersNeverChange : after (step (withDstCap (encoder abcabc 3 13) 16)) (fun t =>
    t.cfg.dstCap = some 16) = true := by decide

/-- H12: in phase BUSY. -/
theorem witness_ResetInputResetsTheRegisters :
    { encoder abcabc 3 13 with inputs := [.reset] }.inputs = .reset :: [] := by decide

/-- Each clause: three registers outside BUSY, three while BUSY; the values are those of T9 and of a running job. -/
theorem witness_HostReadsOfRegisters :
    (overran.phase ≠ .busy ∧
      after (step { overran with inputs := [.readReg .outLen] }) (fun t => t.hostData = 1) = true ∧
      after (step { overran with inputs := [.readReg .inPos] }) (fun t => t.hostData = 7) = true ∧
      after (step { loaded abcabc with inputs := [.readReg .srcLen] }) (fun t => t.hostData = 6) = true) ∧
    ((encoder abcabc 3 13).phase = .busy ∧
      after (step { encoder abcabc 3 13 with inputs := [.readReg .cmd] }) (fun t => t.hostData = 0) = true ∧
      after (step { encoder abcabc 3 13 with inputs := [.readReg .status] }) (fun t => t.hostData = 5) = true ∧
      after (step { encoder abcabc 3 13 with inputs := [.readReg .cause] }) (fun t => t.hostData = 0) = true) := by
  decide

theorem witness_HostWritesOfSrcLen :
    ({ overran with inputs := [.writeSrcLen 5] }.inputs = .writeSrcLen 5 :: [] ∧ overran.phase ≠ .busy) ∧
    ({ encoder abcabc 3 13 with inputs := [.writeSrcLen 5] }.inputs = .writeSrcLen 5 :: [] ∧
      (encoder abcabc 3 13).phase = .busy ∧ (encoder abcabc 3 13).cfg.srcLenWhileBusy = .ignored) ∧
    ({ withoutBusyWrites (encoder abcabc 3 13) with inputs := [.writeSrcLen 5] }.inputs = .writeSrcLen 5 :: [] ∧
      (withoutBusyWrites (encoder abcabc 3 13)).phase = .busy ∧
      (withoutBusyWrites (encoder abcabc 3 13)).cfg.srcLenWhileBusy = .noMove) := by decide

/-- The last cell of a finite memory, for each access. -/
theorem witness_HostAccessesToMemory :
    overran.phase ≠ .busy ∧
    (withSrcCap { overran with inputs := [.writeSrc 3 9] } 4).inputs = .writeSrc 3 9 :: [] ∧
    (withSrcCap { overran with inputs := [.writeSrc 3 9] } 4).srcHas (3 + 1) = true ∧
    (withDstCap { overran with inputs := [.readDst 3] } 4).inputs = .readDst 3 :: [] ∧
    (withDstCap { overran with inputs := [.readDst 3] } 4).dstHas (3 + 1) = true := by decide

theorem witness_HostMayNotTouchMemoryWhileBusy :
    (encoder abcabc 3 13).phase = .busy ∧
    { encoder abcabc 3 13 with inputs := [.writeSrc 0 9] }.inputs = .writeSrc 0 9 :: [] ∧
    { encoder abcabc 3 13 with inputs := [.readDst 0] }.inputs = .readDst 0 :: [] := by decide

end Sys2Proof.Tests
end

/-! PROOFS. The bit fields of tokens and commands (30_encoding.md R93 to R95, R98). -/

namespace Sys2Proof

/-! ## The word and its two bytes -/

theorem wordOfBytes_lowByte_highByte (w : TokenWord) : wordOfBytes (lowByte w) (highByte w) = w := by
  apply BitVec.eq_of_toNat_eq
  rw [wordOfBytes_toNat, lowByte_toNat, highByte_toNat]
  exact Nat.mod_add_div w.toNat 256

theorem lowByte_wordOfBytes (b0 b1 : Byte) : lowByte (wordOfBytes b0 b1) = b0 := by
  apply BitVec.eq_of_toNat_eq
  rw [lowByte_toNat, wordOfBytes_toNat, Nat.add_mul_mod_self_left, Nat.mod_eq_of_lt b0.isLt]

theorem highByte_wordOfBytes (b0 b1 : Byte) : highByte (wordOfBytes b0 b1) = b1 := by
  have h0 := b0.isLt
  apply BitVec.eq_of_toNat_eq
  rw [highByte_toNat, wordOfBytes_toNat]
  omega

/-! ## The word and its two fields -/

theorem distField_packWord (d : Dist) (n : Len) : distField (packWord d n) = d := by
  have hn := n.isLt
  apply BitVec.eq_of_toNat_eq
  rw [distField_toNat, packWord_toNat]
  omega

theorem lenField_packWord (d : Dist) (n : Len) : lenField (packWord d n) = n := by
  apply BitVec.eq_of_toNat_eq
  rw [lenField_toNat, packWord_toNat, Nat.mul_add_mod, Nat.mod_eq_of_lt n.isLt]

theorem packWord_distField_lenField (w : TokenWord) : packWord (distField w) (lenField w) = w := by
  apply BitVec.eq_of_toNat_eq
  rw [packWord_toNat, distField_toNat, lenField_toNat]
  exact Nat.div_add_mod w.toNat 16

/-! ## The token's three bytes -/

theorem tokenBytes_unpacked (b0 b1 b2 : Byte) :
    tokenBytes (distField (wordOfBytes b0 b1)) (lenField (wordOfBytes b0 b1)) b2 = [b0, b1, b2] := by
  rw [tokenBytes, packWord_distField_lenField, lowByte_wordOfBytes, highByte_wordOfBytes]

/-- The fields are read back from the word (R94). -/
theorem packWord_injective {d d' : Dist} {n n' : Len} (h : packWord d n = packWord d' n') : d = d' ∧ n = n' := by
  constructor
  · rw [← distField_packWord d n, h, distField_packWord]
  · rw [← lenField_packWord d n, h, lenField_packWord]

/-- The word is read back from its two bytes, and the fields from the word. -/
theorem tokenBytes_injective {d d' : Dist} {n n' : Len} {l l' : Byte} (h : tokenBytes d n l = tokenBytes d' n' l') :
    d = d' ∧ n = n' ∧ l = l' := by
  simp only [tokenBytes, List.cons.injEq, and_true] at h
  obtain ⟨hlow, hhigh, hl⟩ := h
  have hw : packWord d n = packWord d' n' := by
    rw [← wordOfBytes_lowByte_highByte (packWord d n), hlow, hhigh, wordOfBytes_lowByte_highByte]
  obtain ⟨hd, hn⟩ := packWord_injective hw
  exact ⟨hd, hn, hl⟩

/-- Settles O3: each composition of the word's two readings, as fields and as bytes, is the identity. -/
theorem packAndUnpackAreInverse : Obligations.PackAndUnpackAreInverse := by
  refine ⟨fun d n => ⟨?_, ?_, ?_⟩, fun b0 b1 => ⟨?_, ?_, ?_⟩, ?_, ?_⟩
  · exact wordOfBytes_lowByte_highByte _
  · exact distField_packWord d n
  · exact lenField_packWord d n
  · exact packWord_distField_lenField _
  · exact lowByte_wordOfBytes b0 b1
  · exact highByte_wordOfBytes b0 b1
  · exact tokenBytes_unpacked
  · exact fun _ _ _ _ _ _ => tokenBytes_injective

/-! ## The command code -/

/-- The bits 1:0 of the byte a CMD write is decoded from are the value written, mod 4. -/
theorem commandCode_eq {v : Reg64} {k : BitVec 2} (h : v.toNat % 4 = k.toNat) :
    (v.setWidth 8).extractLsb' 0 2 = k := by
  apply BitVec.eq_of_toNat_eq
  rw [← h, BitVec.extractLsb'_toNat, BitVec.toNat_setWidth, Nat.shiftRight_zero]
  exact Nat.mod_mod_of_dvd v.toNat (by decide)

end Sys2Proof

namespace Sys2Proof.Machine

theorem commandOf_eq_cmdReserved0 {v : Reg64} (h : v.toNat % 4 = 0) : commandOf v = .cmdReserved0 := by
  rw [commandOf, decodeCommand, commandCode_eq (k := 0#2) h, if_pos rfl]

theorem commandOf_eq_compress {v : Reg64} (h : v.toNat % 4 = 1) : commandOf v = .compress := by
  rw [commandOf, decodeCommand, commandCode_eq (k := 1#2) h, if_neg (by decide), if_pos rfl]

theorem commandOf_eq_decompress {v : Reg64} (h : v.toNat % 4 = 2) : commandOf v = .decompress := by
  rw [commandOf, decodeCommand, commandCode_eq (k := 2#2) h, if_neg (by decide), if_neg (by decide), if_pos rfl]

theorem commandOf_eq_cmdReserved3 {v : Reg64} (h : v.toNat % 4 = 3) : commandOf v = .cmdReserved3 := by
  rw [commandOf, decodeCommand, commandCode_eq (k := 3#2) h, if_neg (by decide), if_neg (by decide),
    if_neg (by decide)]

/-- Settles O5, one residue mod 4 at a time. -/
theorem commandCodeIsTheTwoLowBits : Obligations.CommandCodeIsTheTwoLowBits :=
  fun _ => ⟨commandOf_eq_cmdReserved0, commandOf_eq_compress, commandOf_eq_decompress, commandOf_eq_cmdReserved3⟩

/-! ## UNPACK -/

/-- UNPACK always completes, with the fields of the word in the working registers. -/
theorem exec_unpack (b0 b1 b2 : Byte) (s : State) :
    exec (.unpack b0 b1 b2) s = .next (s.setWork (s.work.unpacked b0 b1 b2)) := rfl

/-- Settles O15: the fields' values are the arithmetic of the word's. -/
theorem unpackSplitsTheWord : Obligations.UnpackSplitsTheWord := by
  constructor
  · intro s b0 b1 b2
    refine ⟨_, exec_unpack b0 b1 b2 s, ?word, ?tdist, ?tlen, rfl, rfl⟩
    case word => exact wordOfBytes_toNat b0 b1
    case tdist =>
      rw [State.setWork_work, Working.unpacked_tdist, distField_toNat, wordOfBytes_toNat]
    case tlen =>
      rw [State.setWork_work, Working.unpacked_tlen, lenField_toNat, wordOfBytes_toNat]
  · intro s
    refine ⟨_, exec_unpack _ _ _ s, ?_⟩
    simp only [State.setWork_work, Working.unpacked_word, Working.unpacked_tdist, Working.unpacked_tlen,
      Working.unpacked_lit]
    decide

end Sys2Proof.Machine

/-! PROOFS. The Match Finder (40_match_finder.md R127, R128). -/

namespace Sys2Proof.Machine

/-! ## The specification's `L(d)` is the length the algorithm grows -/

/-- `candidateLen` meets the specification of `L(d)`. -/
theorem isCandidateLen_candidateLen (src : Memory) {n p : Nat} (d : Nat) (hn : p ≤ n) :
    IsCandidateLen src n p d (candidateLen src n p d) := by
  obtain ⟨hcap, hend, hmatch⟩ := candidateLen_matches src d hn
  refine ⟨⟨by omega, hmatch⟩, fun k hk hmatch' => ?_⟩
  exact candidateLen_greatest src (by omega) (by omega) hmatch'

/-- The specification fixes one length for each candidate, since each of two greatest lengths bounds the other. -/
theorem IsCandidateLen.unique {src : Memory} {n p d l l' : Nat} (h : IsCandidateLen src n p d l)
    (h' : IsCandidateLen src n p d l') : l = l' := by
  obtain ⟨⟨hcap, hmatch⟩, hgreatest⟩ := h
  obtain ⟨⟨hcap', hmatch'⟩, hgreatest'⟩ := h'
  exact le_antisymm (hgreatest' l hcap hmatch) (hgreatest l' hcap' hmatch')

theorem isCandidateLen_iff {src : Memory} {n p d l : Nat} (hn : p ≤ n) :
    IsCandidateLen src n p d l ↔ l = candidateLen src n p d := by
  constructor
  · exact fun h => h.unique (isCandidateLen_candidateLen src d hn)
  · rintro rfl
    exact isCandidateLen_candidateLen src d hn

/-! ## MF.SEARCH -/

/-- MF.SEARCH completes where SRC has the input. -/
theorem exec_mfSearch {s : State} (h : s.srcHas s.work.N = true) :
    exec .mfSearch s = .next (s.setWork (s.work.searched (search s.src s.work.N s.work.p))) :=
  State.needSrc_of_has h _

/-- Settles O21: with the specification's `L(d)` read as `candidateLen`, the clauses are those of `search_spec`. -/
theorem searchFindsTheLongestNearestMatch : Obligations.SearchFindsTheLongestNearestMatch := by
  intro s hp hsrc
  have hn : s.work.p ≤ s.work.N := hp.le
  obtain ⟨hlongest, hkept, hleast, hnone⟩ := search_spec (src := s.src) hn
  refine ⟨_, exec_mfSearch hsrc, ?_⟩
  simp only [State.setWork_work, searched_mlen _ hn, searched_mdist _ hn, isCandidateLen_iff hn]
  refine ⟨?longest, ?nearest, hnone, rfl⟩
  case longest =>
    rintro d l hd hdp rfl
    exact hlongest d hd hdp
  case nearest =>
    intro hlen
    obtain ⟨hdist, hcand, hreached⟩ := hkept hlen
    exact ⟨hdist, hcand, hreached.symm, fun d hd hlt => (hleast d hd hlt).ne'⟩

end Sys2Proof.Machine

/-! PROOFS. The token a COMPRESS step emits, and the round trip (41_token_encoder.md R148, R151, R152). -/

namespace Sys2Proof.Machine

/-! ## What a token stands for -/

/-- The token `(d, len, l)` stands for `b[p .. p + span)`, which ends at `n` or below (R151). -/
structure StandsFor (b : Memory) (n p : Nat) (d : Dist) (len : Len) (l : Byte) : Prop where
  dist : d.toNat ≤ p
  noDist : d = 0 → len = 0
  copied : ∀ i, i < len.toNat → b.read (p + i) = b.read (p - d.toNat + i)
  literal : l = b.read (p + len.toNat)
  fits : p + span d len ≤ n

/-- Only a distance of 0 makes the length field ineffective (R165). -/
theorem effLen_eq_toNat {d : Dist} {len : Len} (h : d = 0 → len = 0) : effLen d len = len.toNat := by
  by_cases hd : d = 0
  · rw [h hd, effLen_zero_len]
    rfl
  · exact effLen_of_ne hd len

theorem span_eq {d : Dist} {len : Len} (h : d = 0 → len = 0) : span d len = len.toNat + 1 := by
  rw [span, effLen_eq_toNat h]

/-- The decoder's output grows by the bytes a token stands for: each copied byte equals one that is already the
input's, even where the copy overlaps its own source (R151 (d), R178). -/
theorem StandsFor.read_tokenDst {b m : Memory} {n p : Nat} {d : Dist} {len : Len} {l : Byte}
    (h : StandsFor b n p d len l) (hm : ∀ a, a < p → m.read a = b.read a) {a : Nat} (ha : a < p + span d len) :
    (tokenDst m p d len l).read a = b.read a := by
  obtain ⟨hdist, hnoDist, hcopied, hliteral, -⟩ := h
  have heff := effLen_eq_toNat hnoDist
  rw [span_eq hnoDist] at ha
  induction a using Nat.strong_induction_on with
  | _ a ih =>
    obtain hold | ⟨i, rfl⟩ : a < p ∨ ∃ i, a = p + i :=
      (Nat.lt_or_ge a p).imp_right Nat.exists_eq_add_of_le
    · rw [read_tokenDst_outside _ _ _ _ _ _ (.inl hold), hm a hold]
    · obtain hi | hi := Nat.lt_or_ge i len.toNat
      · have hd : 1 ≤ d.toNat := by
          by_contra hz
          rw [hnoDist (BitVec.eq_of_toNat_eq (Nat.eq_zero_of_not_pos hz))] at hi
          exact absurd hi (Nat.not_lt_zero i)
        rw [read_tokenDst_copied _ _ _ _ _ i (by omega) hd hdist, ih _ (by omega) (by omega), hcopied i hi]
        congr 1
        omega
      · have hindex : p + i = literalIndex p d len := by rw [literalIndex]; omega
        rw [hindex, read_tokenDst_literal, hliteral, literalIndex, heff]

/-! ## The token step of COMPRESS -/

/-- PACK's bytes decode to the token packed (R93 to R95). -/
theorem decodeToken_packWord (d : Dist) (len : Len) (l : Byte) :
    decodeToken (lowByte (packWord d len)) (highByte (packWord d len)) l = classify d len l := by
  rw [decodeToken, wordOfBytes_lowByte_highByte, distField_packWord, lenField_packWord]

theorem CompressTokenDone.decodes {s t : State} (h : CompressTokenDone s t) :
    decodeToken (t.dst.read s.work.wp) (t.dst.read (s.work.wp + 1)) (t.dst.read (s.work.wp + 2)) =
      classify t.work.tdist t.work.tlen t.work.lit := by
  rw [h.byte0, h.byte1, h.byte2, decodeToken_packWord]

/-- R151 for the step's token, from what the search found; boundary mode gives up the match's last byte. -/
theorem CompressTokenDone.standsFor {s t : State} (h : CompressTokenDone s t) (hp : s.work.p < s.work.N) :
    StandsFor s.src s.work.N s.work.p t.work.tdist t.work.tlen t.work.lit := by
  obtain ⟨-, -, hdist, -, hmatch⟩ := search_bounds (src := s.src) hp.le
  obtain ⟨-, hkept, -, -⟩ := search_spec (src := s.src) hp.le
  have htdist := h.tdist
  have hnoDist : t.work.tdist = 0 → t.work.tlen = 0 := by
    intro hd
    have hbd : (search s.src s.work.N s.work.p).bd = 0 := by
      rw [← htdist, hd]
      rfl
    have hbl : (search s.src s.work.N s.work.p).bl = 0 := by
      by_contra hne
      have := (hkept (Nat.pos_of_ne_zero hne)).1
      omega
    apply BitVec.eq_of_toNat_eq
    cases h.emitted with
    | normal below tlen lit adv => exact tlen.trans hbl
    | boundary reach some tlen lit adv => omega
  refine ⟨by omega, hnoDist, fun i hi => ?copied, ?literal, ?fits⟩
  case copied =>
    rw [htdist]
    refine (hmatch i ?_).symm
    cases h.emitted <;> omega
  case literal =>
    cases h.emitted with
    | normal below tlen lit adv => rw [lit, tlen]
    | boundary reach some tlen lit adv =>
      rw [lit, tlen]
      congr 1
      omega
  case fits =>
    rw [span_eq hnoDist]
    cases h.emitted <;> omega

theorem compressStep_token {s : State} (hwp : s.work.wp ≠ 0) (hp : s.work.p < s.work.N) :
    compressStep s = compressToken s := by
  rw [compressStep, if_neg hwp, if_pos hp]

theorem compressStep_end {s : State} (hwp : s.work.wp ≠ 0) (hp : s.work.N ≤ s.work.p) :
    compressStep s = .next (s.finished s.work.wp s.work.p) := by
  rw [compressStep, if_neg hwp, if_neg (by omega)]

/-- Settles O27: the step's token stands for the input it advances over, and the mode is the one the reach of the
match selects. -/
theorem emittedTokenDescribesTheInput : Obligations.EmittedTokenDescribesTheInput := by
  intro s hquiet hbusy hop hwp hp hsrc hdst
  obtain ⟨t, ht⟩ := compressToken_completes hp hsrc hdst
  have hdone := compressToken_eq_next hp.le ht
  have hstands := hdone.standsFor hp
  have hmlen := hdone.mlen
  have hspan : t.work.adv = span t.work.tdist t.work.tlen := by
    rw [span_eq hstands.noDist, hdone.adv]
  obtain ⟨hadv1, hadv16⟩ := span_bounds t.work.tdist t.work.tlen
  refine ⟨t, ?step, hstands.dist, hstands.noDist, hstands.copied, hstands.literal, ?normal, ?boundary, hspan,
    by omega, by omega, hdone.p, ?bound, hdone.wp, hdone.decodes⟩
  case step => rw [step_quiet hquiet, coreStep_compress hbusy hop, compressStep_token hwp hp, ht]
  case normal =>
    intro hbelow
    cases hdone.emitted with
    | normal below tlen lit adv => exact ⟨BitVec.eq_of_toNat_eq (tlen.trans hmlen.symm), by omega⟩
    | boundary reach some tlen lit adv => omega
  case boundary =>
    intro hreach
    have hlen := t.work.mlen.isLt
    cases hdone.emitted with
    | normal below tlen lit adv => omega
    | boundary reach some tlen lit adv => exact ⟨by omega, by omega, by omega, by omega⟩
  case bound =>
    rw [hdone.p, hspan]
    exact hstands.fits

/-! ## Runs that reach a state -/

/-- Some number of steps leads to a state with the property. -/
def Reaches (s : State) (P : State → Prop) : Prop := ∃ k t, run k s = .next t ∧ P t

theorem Reaches.now {s : State} {P : State → Prop} (h : P s) : Reaches s P := ⟨0, s, rfl, h⟩

theorem Reaches.of_step {s s' : State} {P : State → Prop} (hs : step s = .next s') (h : Reaches s' P) :
    Reaches s P := by
  obtain ⟨k, t, hrun, ht⟩ := h
  refine ⟨k + 1, t, ?_, ht⟩
  rw [run, hs, andThen_next, hrun]

theorem Reaches.mono {s : State} {P Q : State → Prop} (h : Reaches s P) (hPQ : ∀ t, P t → Q t) : Reaches s Q := by
  obtain ⟨k, t, hrun, ht⟩ := h
  exact ⟨k, t, hrun, hPQ t ht⟩

/-! ## A stream that codes an input -/

/-- The bytes of `m` from `q` to `e` are tokens that stand for `b[p .. n)`, one after the other. -/
inductive Codes (b m : Memory) (n e : Nat) : Nat → Nat → Prop where
  | done {p q : Nat} (input : p = n) (stream : q = e) : Codes b m n e p q
  | token {p q : Nat} {d : Dist} {len : Len} {l : Byte}
      (bytes : decodeToken (m.read q) (m.read (q + 1)) (m.read (q + 2)) = classify d len l)
      (stands : StandsFor b n p d len l) (rest : Codes b m n e (p + span d len) (q + 3)) : Codes b m n e p q

theorem Codes.le {b m : Memory} {n e p q : Nat} (h : Codes b m n e p q) : q ≤ e := by
  induction h with
  | done input stream => exact stream.le
  | token bytes stands rest ih => omega

/-- The stream is read only below its end. -/
theorem Codes.congr {b m m' : Memory} {n e p q : Nat} (h : Codes b m n e p q)
    (hm : ∀ a, a < e → m'.read a = m.read a) : Codes b m' n e p q := by
  induction h with
  | done input stream => exact .done input stream
  | token bytes stands rest ih =>
    have hle := rest.le
    refine .token ?_ stands ih
    rw [hm _ (by omega), hm _ (by omega), hm _ (by omega), bytes]

/-! ## The run of a COMPRESS job -/

/-- A running COMPRESS job, with no move of the environment pending. -/
structure Compressing (s : State) : Prop where
  quiet : s.inputs = []
  busy : s.phase = .busy
  op : s.op = .compress
  encoding : Encoding s

theorem Compressing.step_eq {s : State} (h : Compressing s) : step s = compressStep s := by
  rw [step_quiet h.quiet, coreStep_compress h.busy h.op]

/-- How the job that stands at `s` ends: the output so far stays, and the rest codes the rest of the input. -/
structure CompressedFrom (s t : State) : Prop where
  phase : t.phase = .done
  op : t.op = .compress
  kept : ∀ a, a < s.work.wp → t.dst.read a = s.dst.read a
  codes : Codes s.src t.dst s.work.N t.outLen.toNat s.work.p s.work.wp

/-- The end of the job (R149): `p = N`, and OUT_LEN holds `wp` without loss. -/
theorem Compressing.finished {s : State} (h : Compressing s) (headed : s.work.wp ≠ 0) (hp : s.work.N ≤ s.work.p) :
    CompressedFrom s (s.finished s.work.wp s.work.p) := by
  have hmax : s.work.N ≤ 4294967295 := h.encoding.fits
  obtain ⟨hwp, -⟩ | ⟨k, hwp, hk, -, hpN⟩ := h.encoding.progress
  · exact absurd hwp headed
  · refine ⟨rfl, h.op, fun _ _ => rfl, .done (le_antisymm hpN hp) ?_⟩
    rw [State.finished_outLen, BitVec.toNat_ofNat]
    omega

/-- A step that writes only DST and the working registers leaves the job running. -/
theorem Compressing.next {s t : State} (h : Compressing s) (ht : compressStep s = .next t)
    (hframe : t = (s.setDst t.dst).setWork t.work) : Compressing t := by
  have hbusy : t.phase = .busy := by
    rw [hframe]
    exact h.busy
  refine ⟨?_, hbusy, ?_, h.encoding.next ht hbusy⟩
  · rw [hframe]
    exact h.quiet
  · rw [hframe]
    exact h.op

/-- A token step, then the run from there: the token's bytes are below the next `wp`, so they stand in the result. -/
theorem CompressTokenDone.compressedFrom {s t u : State} (hdone : CompressTokenDone s t) (hp : s.work.p < s.work.N)
    (h : CompressedFrom t u) : CompressedFrom s u := by
  have hstands := hdone.standsFor hp
  have hsrc : t.src = s.src := by rw [hdone.frame]; rfl
  obtain ⟨hphase, hop, hkept, hcodes⟩ := h
  rw [hdone.wp] at hkept
  rw [hsrc, hdone.N, hdone.wp, hdone.p, hdone.adv, ← span_eq hstands.noDist] at hcodes
  refine ⟨hphase, hop, fun a ha => ?_, .token ?_ hstands hcodes⟩
  · rw [hkept a (by omega), hdone.outside a (.inl ha)]
  · rw [hkept _ (by omega), hkept _ (by omega), hkept _ (by omega), hdone.decodes]

/-- The token loop (R143, R149), by induction on the input that is left. -/
theorem Compressing.reaches {s : State} (h : Compressing s) (headed : s.work.wp ≠ 0) :
    Reaches s (CompressedFrom s) := by
  induction hleft : s.work.N - s.work.p using Nat.strong_induction_on generalizing s with
  | _ left ih =>
    rcases Nat.lt_or_ge s.work.p s.work.N with hp | hp
    · obtain ⟨t, ht⟩ := h.encoding.completes
      have hdone := compressToken_eq_next hp.le ((compressStep_token headed hp).symm.trans ht)
      have hN := hdone.N
      have hpos := hdone.p
      have hadv := hdone.adv
      have hwp := hdone.wp
      refine .of_step (h.step_eq.trans ht) ((ih _ ?_ (h.next ht hdone.frame) ?_ rfl).mono fun u hu => ?_)
      · omega
      · omega
      · exact hdone.compressedFrom hp hu
    · exact .of_step (h.step_eq.trans (compressStep_end headed hp)) (.now (h.finished headed hp))

/-! ## The run of a DECOMPRESS job -/

/-- A DECOMPRESS job that has read its header, `n`, and stands at `q` in the stream `m` of length `e`: it has restored
`b[0 .. p)` so far. -/
structure Decompressing (b m : Memory) (n e p q : Nat) (s : State) : Prop where
  quiet : s.inputs = []
  busy : s.phase = .busy
  op : s.op = .decompress
  src : s.src = m
  srcLen : s.srcLen.toNat = e
  srcCells : s.srcHas e = true
  N : s.work.N = n
  dstCells : s.dstHas n = true
  cursor : s.work.cursor = p
  rp : s.work.rp = q
  headed : q ≠ 0
  restored : ∀ a, a < p → s.dst.read a = b.read a

/-- How a DECOMPRESS job ends that gives `b[0 .. n)` back and consumes the stream of length `e`. -/
structure Restored (b : Memory) (n e : Nat) (t : State) : Prop where
  phase : t.phase = .done
  op : t.op = .decompress
  outLen : t.outLen = BitVec.ofNat 64 n
  inPos : t.inPos = BitVec.ofNat 64 e
  restored : ∀ a, a < n → t.dst.read a = b.read a

theorem decompressStep_end {s : State} (hrp : s.work.rp ≠ 0) (hc : s.work.N ≤ s.work.cursor) :
    decompressStep s = .next (s.finished s.work.cursor s.work.rp) := by
  rw [decompressStep, if_neg hrp, if_neg (by omega)]

/-- A token step of a DECOMPRESS job whose token exists is the meaning of the token decoded, after UNPACK. -/
theorem decompressStep_token {s : State} {d : Dist} {len : Len} {l : Byte} (hrp : s.work.rp ≠ 0)
    (hc : s.work.cursor < s.work.N) (hlen : fetchEnd s.work ≤ s.srcLen.toNat)
    (hsrc : s.srcHas (fetchEnd s.work) = true)
    (hbytes : decodeToken (s.src.read s.work.rp) (s.src.read (s.work.rp + 1)) (s.src.read (s.work.rp + 2)) =
      classify d len l) :
    decompressStep s = tokenStep d len l s.nextUnpacked := by
  rw [decompressStep, if_neg hrp, if_pos hc, decompressToken, if_neg (Nat.not_lt.2 hlen), State.needSrc_of_has hsrc,
    fetchedToken, hbytes, fetchedUnpack, exec_unpack, andThen_next, exec_classify]
  rfl

theorem Decompressing.step_eq {b m : Memory} {n e p q : Nat} {s : State} (h : Decompressing b m n e p q s) :
    step s = decompressStep s := by
  rw [step_quiet h.quiet, coreStep_decompress h.busy h.op]

theorem Decompressing.finished {b m : Memory} {n e : Nat} {s : State} (h : Decompressing b m n e n e s) :
    Reaches s (Restored b n e) := by
  have hstep := h.step_eq
  obtain ⟨-, -, hop, -, -, -, hN, -, hcursor, hrp, hq, hrestored⟩ := h
  rw [decompressStep_end (hrp ▸ hq) (by omega)] at hstep
  refine .of_step hstep (.now ⟨rfl, hop, ?_, ?_, hrestored⟩)
  · rw [State.finished_outLen, hcursor]
  · rw [State.finished_inPos, hrp]

/-- A token that stands for the input passes both checks and restores its bytes. -/
theorem Decompressing.next {b m : Memory} {n e p q : Nat} {s : State} {d : Dist} {len : Len} {l : Byte}
    (h : Decompressing b m n e p q s) (hlen : q + 3 ≤ e)
    (hbytes : decodeToken (m.read q) (m.read (q + 1)) (m.read (q + 2)) = classify d len l)
    (hstands : StandsFor b n p d len l) :
    ∃ t, step s = .next t ∧ Decompressing b m n e (p + span d len) (q + 3) t := by
  have hspan := span_bounds d len
  have hdist := hstands.dist
  have hfits := hstands.fits
  have hstep := h.step_eq
  obtain ⟨hquiet, hbusy, hop, rfl, rfl, hsrc, rfl, hdst, rfl, rfl, hq, hrestored⟩ := h
  rw [decompressStep_token hq (by omega) hlen (State.srcHas_mono hsrc hlen) hbytes,
    tokenStep_completes (s := s.nextUnpacked) hdist hfits (State.dstHas_mono hdst hfits)] at hstep
  exact ⟨_, hstep, hquiet, hbusy, hop, rfl, rfl, hsrc, rfl, hdst, rfl, rfl, Nat.succ_ne_zero _,
    fun a ha => hstands.read_tokenDst hrestored ha⟩

/-- The token loop of the decoder follows the tokens of the stream (R152). -/
theorem Codes.restores {b m : Memory} {n e p q : Nat} (h : Codes b m n e p q) {s : State}
    (hs : Decompressing b m n e p q s) : Reaches s (Restored b n e) := by
  induction h generalizing s with
  | done input stream =>
    subst input stream
    exact hs.finished
  | token bytes stands rest ih =>
    obtain ⟨t, hstep, ht⟩ := hs.next rest.le bytes stands
    exact .of_step hstep (ih ht)

/-! ## The header steps -/

/-- The header in the first four bytes of a memory (R91, R161). -/
def Memory.header (m : Memory) : HeaderWord := headerOfBytes (m.read 0) (m.read 1) (m.read 2) (m.read 3)

theorem Memory.header_congr {m m' : Memory} (h : ∀ a, a < 4 → m'.read a = m.read a) : m'.header = m.header := by
  rw [Memory.header, h 0 (by omega), h 1 (by omega), h 2 (by omega), h 3 (by omega), Memory.header]

/-- ENC.HDR completes where DST has room for the header. -/
theorem exec_encHdr {s : State} (h : s.dstHas 4 = true) :
    exec .encHdr s = .next ((s.setDst (s.dst.memWrite 0 4 s.work.N)).setWork { s.work with wp := 4 }) :=
  State.needDst_of_has h _

/-- HDR completes where DST has room for the bytes announced. -/
theorem exec_hdr {s : State} {n : HeaderWord} (h : s.dstHas n.toNat = true) :
    exec (.hdr n) s = .next (s.setWork (s.work.headed n)) := if_pos h

theorem compressStep_header {s : State} (hwp : s.work.wp = 0) (h : s.dstHas 4 = true) :
    compressStep s = .next ((s.setDst (s.dst.memWrite 0 4 s.work.N)).setWork { s.work with wp := 4 }) := by
  rw [compressStep, if_pos hwp, exec_encHdr h]

theorem decompressStep_header {s : State} (hrp : s.work.rp = 0) (hlen : Config.headerBytes ≤ s.srcLen.toNat)
    (hsrc : s.srcHas Config.headerBytes = true) (hdst : s.dstHas s.src.header.toNat = true) :
    decompressStep s = .next (s.setWork (s.work.headed s.src.header)) := by
  rw [decompressStep, if_pos hrp, headerStep, if_neg (Nat.not_lt.2 hlen), State.needSrc_of_has hsrc]
  exact exec_hdr hdst

/-- The header ENC.HDR writes reads back as the length (R91, R142). -/
theorem Memory.header_memWrite (m : Memory) {n : Nat} (h : n ≤ 4294967295) :
    (m.memWrite 0 4 n).header.toNat = n := by
  have hbyte : ∀ k, k < 4 → (m.memWrite 0 4 n).read k = BitVec.ofNat 8 (n / 256 ^ k) := by
    intro k hk
    rw [← Memory.read_memWrite_inside m 0 4 n k hk, Nat.zero_add]
  rw [Memory.header, hbyte 0 (by omega), hbyte 1 (by omega), hbyte 2 (by omega), hbyte 3 (by omega),
    headerOfBytes_toNat]
  simp only [BitVec.toNat_ofNat]
  omega

/-- The length in the header, then tokens that stand for the whole of `b[0 .. n)`. -/
structure CodesAll (b m : Memory) (n e : Nat) : Prop where
  header : m.header.toNat = n
  tokens : Codes b m n e 0 4

theorem CodesAll.congr {b m m' : Memory} {n e : Nat} (h : CodesAll b m n e)
    (hm : ∀ a, a < e → m'.read a = m.read a) : CodesAll b m' n e := by
  have hle := h.tokens.le
  refine ⟨?_, h.tokens.congr hm⟩
  rw [Memory.header_congr fun a ha => hm a (by omega), h.header]

/-- A COMPRESS job at its start: the header stays in the result, the tokens code the whole input. -/
theorem Compressing.reaches_of_start {s : State} (h : Compressing s) (hwp : s.work.wp = 0) :
    Reaches s fun t => t.phase = .done ∧ t.op = .compress ∧ CodesAll s.src t.dst s.work.N t.outLen.toNat := by
  have hp : s.work.p = 0 := by
    obtain ⟨-, hp⟩ | ⟨k, hk, -⟩ := h.encoding.progress
    · exact hp
    · omega
  have hstep := compressStep_header hwp (State.dstHas_mono h.encoding.dstCells (Nat.le_add_right _ _))
  refine .of_step (h.step_eq.trans hstep) (((h.next hstep rfl).reaches (by simp)).mono fun t ht => ?_)
  obtain ⟨hphase, hop, hkept, hcodes⟩ := ht
  simp only [State.setWork_work, State.setWork_dst, State.setDst_dst, State.setWork_src, State.setDst_src, hp]
    at hkept hcodes
  refine ⟨hphase, hop, ?_, hcodes⟩
  rw [Memory.header_congr hkept, Memory.header_memWrite _ h.encoding.fits]

/-- A DECOMPRESS job at its start restores what its stream codes. -/
theorem CodesAll.restores {b : Memory} {n : Nat} {s : State} (hquiet : s.inputs = []) (hbusy : s.phase = .busy)
    (hop : s.op = .decompress) (hrp : s.work.rp = 0) (hcursor : s.work.cursor = 0)
    (h : CodesAll b s.src n s.srcLen.toNat) (hsrc : s.srcHas s.srcLen.toNat = true) (hdst : s.dstHas n = true) :
    Reaches s (Restored b n s.srcLen.toNat) := by
  have hle := h.tokens.le
  have hstep := decompressStep_header hrp hle (State.srcHas_mono hsrc hle) (by rwa [h.header])
  rw [← coreStep_decompress hbusy hop, ← step_quiet hquiet] at hstep
  refine .of_step hstep (h.tokens.restores ?_)
  exact ⟨hquiet, hbusy, hop, rfl, rfl, hsrc, h.header, hdst, hcursor, rfl, by simp,
    fun a ha => absurd ha (Nat.not_lt_zero a)⟩

/-! ## From the command to the result -/

/-- A command written to a machine that may be given one runs at once. -/
theorem Ready.step_withCommand {s : State} (h : Ready s) (v : Reg64) :
    step (s.withCommand v) = exec (commandOf v) s := by
  rw [step_input (show (s.withCommand v).inputs = .writeCmd v :: [] from rfl)]
  have hs : (s.withCommand v).setInputs [] = s := by
    cases s
    cases h.quiet
    rfl
  rw [hs]
  rfl

/-- R41, R140: COMPRESS of an input that fits starts its job. -/
theorem exec_compress {s : State} (hb : s.phase ≠ .busy) (hsrc : s.srcHas s.srcLen.toNat = true)
    (hmax : s.srcLen.toNat ≤ 4294967295) (hdst : s.dstHas (4 + 3 * s.srcLen.toNat) = true) :
    exec .compress s =
      .next ((s.started .compress).setWork { s.work with N := s.srcLen.toNat, p := 0, wp := 0 }) := by
  show accept s (startCompress s) = _
  rw [accept, if_neg hb, if_pos hsrc, startCompress,
    if_neg (show ¬ Config.nMax < s.srcLen.toNat from Nat.not_lt.2 hmax)]
  exact if_pos hdst

/-- R41, R160: DECOMPRESS starts its job. -/
theorem exec_decompress {s : State} (hb : s.phase ≠ .busy) (hsrc : s.srcHas s.srcLen.toNat = true) :
    exec .decompress s = .next ((s.started .decompress).setWork { s.work with cursor := 0, rp := 0 }) := by
  show accept s (startDecompress s) = _
  rw [accept, if_neg hb, if_pos hsrc, startDecompress]

/-- COMPRESS of any input that fits ends in DONE, and its output codes the input. -/
theorem Ready.compress_reaches {s : State} (h : Ready s) (hmax : s.srcLen.toNat ≤ 4294967295)
    (hsrc : s.srcHas s.srcLen.toNat = true) (hdst : s.dstHas (4 + 3 * s.srcLen.toNat) = true) :
    Reaches (s.withCommand 1) fun t =>
      t.phase = .done ∧ t.op = .compress ∧ CodesAll s.src t.dst s.srcLen.toNat t.outLen.toNat := by
  refine .of_step ((h.step_withCommand 1).trans (exec_compress h.notBusy hsrc hmax hdst)) ?_
  refine Compressing.reaches_of_start (s := State.setWork _ _) ⟨h.quiet, rfl, rfl, ?_⟩ rfl
  exact ⟨rfl, hmax, hsrc, hdst, .inl ⟨rfl, rfl⟩⟩

/-- DECOMPRESS of a stream that codes `b` ends in DONE and gives `b` back. -/
theorem Ready.decompress_reaches {u : State} {b : Memory} {n : Nat} (h : Ready u)
    (hcodes : CodesAll b u.src n u.srcLen.toNat) (hsrc : u.srcHas u.srcLen.toNat = true)
    (hdst : u.dstHas n = true) : Reaches (u.withCommand 2) (Restored b n u.srcLen.toNat) :=
  .of_step ((h.step_withCommand 2).trans (exec_decompress h.notBusy hsrc))
    (CodesAll.restores (s := State.setWork _ _) h.quiet rfl rfl rfl rfl hcodes hsrc hdst)

/-- Settles O39: what COMPRESS writes codes the input, and DECOMPRESS gives back what its stream codes. -/
theorem roundTripRestoresTheInput : Obligations.RoundTripRestoresTheInput := by
  intro s hs hmax hsrc hdst
  obtain ⟨k, t, hrun, hphase, hop, hcodes⟩ := hs.compress_reaches hmax hsrc hdst
  refine ⟨k, t, hrun, hphase, hop, fun u hu hlen hread husrc hudst => ?_⟩
  rw [← hlen] at hcodes hread
  obtain ⟨j, v, hrun', hv⟩ := hu.decompress_reaches (hcodes.congr hread) husrc hudst
  refine ⟨j, v, hrun', hv.phase, hv.op, ?_, ?_, hv.restored⟩
  · rw [hv.outLen, BitVec.ofNat_toNat, BitVec.setWidth_eq]
  · rw [hv.inPos, BitVec.ofNat_toNat, BitVec.setWidth_eq]

end Sys2Proof.Machine

/-! PROOFS. COPY's closed form (42_token_decoder.md R169, R178). -/

namespace Sys2Proof.Machine

/-- R178: each copied byte equals the one a distance back, so the last `d` bytes before the token repeat. -/
theorem read_tokenDst_cyclic (m : Memory) (c : Nat) (d : Dist) (n : Len) (l : Byte) (i : Nat)
    (hi : i < effLen d n) (hd : 1 ≤ d.toNat) (hc : d.toNat ≤ c) :
    (tokenDst m c d n l).read (c + i) = m.read (c - d.toNat + i % d.toNat) := by
  induction i using Nat.strong_induction_on with
  | _ i ih =>
    rw [read_tokenDst_copied _ _ _ _ _ i hi hd hc]
    obtain hlt | hge := Nat.lt_or_ge i d.toNat
    · rw [read_tokenDst_outside _ _ _ _ _ _ (.inl (by omega)), Nat.mod_eq_of_lt hlt, Nat.sub_add_comm hc]
    · rw [Nat.add_sub_assoc hge, ih (i - d.toNat) (by omega) (by omega), ← Nat.mod_eq_sub_mod hge]

/-- Settles O17: both checks pass, and the copied bytes are the cyclic ones. -/
theorem copyRepeatsTheLastBytes : Obligations.CopyRepeatsTheLastBytes := by
  intro s d n l hd _ hc hfits hdst
  have hne : d ≠ 0 := by
    rintro rfl
    exact absurd hd (by decide)
  have heff : effLen d n = n.toNat := effLen_of_ne hne n
  have hend : s.work.cursor + span d n = s.work.cursor + n.toNat + 1 := by rw [span, heff, Nat.add_assoc]
  refine ⟨_, tokenStep_completes hc (hend ▸ hfits) (hend ▸ hdst), fun i hi => ?_, ?_, fun a ha => ?_, ?_⟩
  · exact read_tokenDst_cyclic _ _ _ _ _ i (heff ▸ hi) hd hc
  · exact read_tokenDst_literal _ _ _ _ _
  · exact read_tokenDst_outside _ _ _ _ _ _ (by omega)
  · rw [Working.tokenDone, hend]
    rfl

end Sys2Proof.Machine

/-! PROOFS. The decoders and the encoder (30_encoding.md R91 to R100, R109). -/

namespace Sys2Proof

/-! ## Tokens -/

theorem decode_token (b0 b1 b2 : Byte) (rest : List Byte) :
    decode .token (b0 :: b1 :: b2 :: rest) = .ok (decodeToken b0 b1 b2) rest := rfl

/-- The bytes of a token decode to the instruction of its class. -/
theorem decode_tokenBytes (d : Dist) (n : Len) (l : Byte) (rest : List Byte) :
    decode .token (tokenBytes d n l ++ rest) = .ok (classify d n l) rest := by
  rw [← Machine.decodeToken_packWord]
  rfl

theorem classify_wellFormed (d : Dist) (n : Len) (l : Byte) : (classify d n l).wellFormed = true := by
  rw [classify]
  split_ifs with hd hn hn
  · rfl
  · exact decide_eq_true hn
  · exact decide_eq_true hd
  · exact Bool.and_eq_true_iff.2 ⟨decide_eq_true hd, decide_eq_true hn⟩

theorem classify_format (d : Dist) (n : Len) (l : Byte) : (classify d n l).format = some .token := by
  rw [classify]
  split_ifs <;> rfl

/-- Every class is encoded as its three fields, those it leaves out being 0. -/
theorem encode_classify (d : Dist) (n : Len) (l : Byte) : encode (classify d n l) = tokenBytes d n l := by
  rw [classify]
  split_ifs with hd hn hn
  · rw [hd, hn]
    rfl
  · rw [hd]
    rfl
  · rw [hn]
    rfl
  · rfl

/-! ## Headers -/

/-- A header is read back from its four bytes (R91). -/
theorem headerOfBytes_headerBytes (n : HeaderWord) :
    headerOfBytes (n.extractLsb' 0 8) (n.extractLsb' 8 8) (n.extractLsb' 16 8) (n.extractLsb' 24 8) = n := by
  have hn := n.isLt
  apply BitVec.eq_of_toNat_eq
  simp only [headerOfBytes_toNat, BitVec.extractLsb'_toNat, Nat.shiftRight_eq_div_pow]
  omega

theorem decode_headerBytes (n : HeaderWord) (rest : List Byte) :
    decode .header (headerBytes n ++ rest) = .ok (.hdr n) rest := by
  conv_rhs => rw [← headerOfBytes_headerBytes n]
  rfl

/-- Four bytes are read back from the header they make. -/
theorem headerBytes_headerOfBytes (b0 b1 b2 b3 : Byte) : headerBytes (headerOfBytes b0 b1 b2 b3) = [b0, b1, b2, b3] := by
  have h0 := b0.isLt
  have h1 := b1.isLt
  have h2 := b2.isLt
  have h3 := b3.isLt
  simp only [headerBytes, List.cons.injEq, and_true, ← BitVec.toNat_inj, BitVec.extractLsb'_toNat,
    headerOfBytes_toNat, Nat.shiftRight_eq_div_pow]
  omega

/-! ## Decoding and encoding -/

/-- Settles O1, format by format: a token's fields and a header's value are read back from their bytes. -/
theorem decodeOfEncodeIsTheInstruction : Obligations.DecodeOfEncodeIsTheInstruction := by
  intro i f rest hwf hf
  cases i with
  | compress | decompress | cmdReserved0 | cmdReserved3 =>
    cases hf
    rfl
  | hdr n =>
    cases hf
    exact decode_headerBytes n rest
  | lit l =>
    cases hf
    exact decode_tokenBytes 0 0 l rest
  | litx n l =>
    cases hf
    refine (decode_tokenBytes 0 n l rest).trans ?_
    rw [classify, if_pos rfl, if_neg (of_decide_eq_true hwf)]
  | copy0 d l =>
    cases hf
    refine (decode_tokenBytes d 0 l rest).trans ?_
    rw [classify, if_neg (of_decide_eq_true hwf), if_pos rfl]
  | copy d n l =>
    cases hf
    obtain ⟨hd, hn⟩ := Bool.and_eq_true_iff.1 hwf
    refine (decode_tokenBytes d n l rest).trans ?_
    rw [classify, if_neg (of_decide_eq_true hd), if_neg (of_decide_eq_true hn)]
  | mfSearch | encHdr | encNormal | encBoundary | pack | unpack => cases hf

/-- Settles O2: a token pattern is the encoding of its class, a header pattern that of its value. -/
theorem everyPatternDecodesAndReencodes : Obligations.EveryPatternDecodesAndReencodes := by
  constructor
  · intro b0 b1 b2 rest
    refine ⟨_, decode_token b0 b1 b2 rest, classify_wellFormed _ _ _, classify_format _ _ _, ?_⟩
    rw [decodeToken, encode_classify, tokenBytes_unpacked]
  · intro b0 b1 b2 b3 rest
    exact ⟨.hdr (headerOfBytes b0 b1 b2 b3), rfl, rfl, rfl, headerBytes_headerOfBytes b0 b1 b2 b3⟩

/-! ## What the decoders refuse -/

theorem decode_command_eq_error_iff (bs : List Byte) : (∃ e, decode .command bs = .error e) ↔ bs = [] := by
  cases bs with
  | nil => simp [decode]
  | cons b rest => simp [decode]

theorem decode_header_eq_error_iff (bs : List Byte) : (∃ e, decode .header bs = .error e) ↔ bs.length < 4 := by
  match bs with
  | [] | [_] | [_, _] | [_, _, _] => simp [decode]
  | _ :: _ :: _ :: _ :: _ => simp [decode]

theorem decode_token_eq_error_iff (bs : List Byte) : (∃ e, decode .token bs = .error e) ↔ bs.length < 3 := by
  match bs with
  | [] | [_] | [_, _] => simp [decode]
  | _ :: _ :: _ :: _ => simp [decode]

/-- Settles O6, one format at a time. -/
theorem decodeRefusesOnlyShortInput : Obligations.DecodeRefusesOnlyShortInput := fun bs =>
  ⟨decode_command_eq_error_iff bs, decode_header_eq_error_iff bs, decode_token_eq_error_iff bs⟩

/-- Settles O7: seven fixed words, by evaluation. -/
theorem sampleWordsDecode : Obligations.SampleWordsDecode := by
  unfold Obligations.SampleWordsDecode
  decide

/-! ## The match-and-mask table (R109) -/

/-- The token's 24-bit value: the word in bits 15:0, the literal above it (R92). -/
def tokenValue (b0 b1 b2 : Byte) : BitVec 24 :=
  BitVec.ofNat 24 (b0.toNat + 2 ^ 8 * b1.toNat + 2 ^ 16 * b2.toNat)

theorem tokenValue_toNat (b0 b1 b2 : Byte) :
    (tokenValue b0 b1 b2).toNat = (wordOfBytes b0 b1).toNat + 65536 * b2.toNat := by
  have h0 := b0.isLt
  have h1 := b1.isLt
  have h2 := b2.isLt
  rw [tokenValue, BitVec.toNat_ofNat, wordOfBytes_toNat]
  omega

/-- A mask of `n` ones at bit `m` picks out the digits `x / 2 ^ m % 2 ^ n`. -/
theorem and_mask_eq_zero_iff (x m n : Nat) : x &&& ((2 ^ n - 1) <<< m) = 0 ↔ x / 2 ^ m % 2 ^ n = 0 := by
  have h : x &&& ((2 ^ n - 1) <<< m) = (x / 2 ^ m % 2 ^ n) <<< m := by
    apply Nat.eq_of_testBit_eq
    intro i
    rw [← Nat.shiftRight_eq_div_pow]
    simp only [Nat.testBit_and, Nat.testBit_shiftLeft, Nat.testBit_two_pow_sub_one, Nat.testBit_mod_two_pow,
      Nat.testBit_shiftRight]
    by_cases hi : m ≤ i
    · simp [hi, Bool.and_comm]
    · simp [hi]
  rw [h, Nat.shiftLeft_eq]
  simp

theorem distField_eq_zero_iff (w : TokenWord) : distField w = 0 ↔ w.toNat / 16 = 0 := by
  rw [← distField_toNat, ← BitVec.toNat_inj]
  rfl

theorem lenField_eq_zero_iff (w : TokenWord) : lenField w = 0 ↔ w.toNat % 16 = 0 := by
  rw [← lenField_toNat, ← BitVec.toNat_inj]
  rfl

section
variable (b0 b1 b2 : Byte)

theorem tokenValue_and_word_eq_zero_iff : tokenValue b0 b1 b2 &&& 0x00FFFF#24 = 0#24 ↔
    distField (wordOfBytes b0 b1) = 0 ∧ lenField (wordOfBytes b0 b1) = 0 := by
  have hw := (wordOfBytes b0 b1).isLt
  rw [distField_eq_zero_iff, lenField_eq_zero_iff, ← BitVec.toNat_inj, BitVec.toNat_and]
  refine (and_mask_eq_zero_iff (tokenValue b0 b1 b2).toNat 0 16).trans ?_
  rw [tokenValue_toNat]
  omega

theorem tokenValue_and_dist_eq_zero_iff : tokenValue b0 b1 b2 &&& 0x00FFF0#24 = 0#24 ↔
    distField (wordOfBytes b0 b1) = 0 := by
  have hw := (wordOfBytes b0 b1).isLt
  rw [distField_eq_zero_iff, ← BitVec.toNat_inj, BitVec.toNat_and]
  refine (and_mask_eq_zero_iff (tokenValue b0 b1 b2).toNat 4 12).trans ?_
  rw [tokenValue_toNat]
  omega

theorem tokenValue_and_len_eq_zero_iff : tokenValue b0 b1 b2 &&& 0x00000F#24 = 0#24 ↔
    lenField (wordOfBytes b0 b1) = 0 := by
  rw [lenField_eq_zero_iff, ← BitVec.toNat_inj, BitVec.toNat_and]
  refine (and_mask_eq_zero_iff (tokenValue b0 b1 b2).toNat 0 4).trans ?_
  rw [tokenValue_toNat]
  omega

end

/-- The class of a token by its two fields, in the table's order. -/
theorem exists_classify_eq_iff (d : Dist) (n : Len) (l : Byte) :
    ((∃ l', classify d n l = .lit l') ↔ d = 0 ∧ n = 0) ∧
    ((∃ n' l', classify d n l = .litx n' l') ↔ ¬ (d = 0 ∧ n = 0) ∧ d = 0) ∧
    ((∃ d' l', classify d n l = .copy0 d' l') ↔ ¬ (d = 0 ∧ n = 0) ∧ ¬ d = 0 ∧ n = 0) ∧
    ((∃ d' n' l', classify d n l = .copy d' n' l') ↔ ¬ (d = 0 ∧ n = 0) ∧ ¬ d = 0 ∧ ¬ n = 0) := by
  rw [classify]
  split_ifs with hd hn hn <;> simp_all

/-- Settles O4: the table's masks test the two fields the classes are made of. -/
theorem tokenClassesFollowTheMaskTable : Obligations.TokenClassesFollowTheMaskTable := by
  intro b0 b1 b2 T
  have hword : T &&& 0x00FFFF#24 = 0#24 ↔ _ := tokenValue_and_word_eq_zero_iff b0 b1 b2
  have hdist : T &&& 0x00FFF0#24 = 0#24 ↔ _ := tokenValue_and_dist_eq_zero_iff b0 b1 b2
  have hlen : T &&& 0x00000F#24 = 0#24 ↔ _ := tokenValue_and_len_eq_zero_iff b0 b1 b2
  simp only [ne_eq, hword, hdist, hlen]
  exact exists_classify_eq_iff _ _ b2

end Sys2Proof

/-! PROOFS. The meanings of the commands, the decoder's and the encoder's operations, each on the paths the rules name. -/

namespace Sys2Proof.Machine

/-! ## The commands (43_host_commands.md R190 to R192) -/

theorem accept_of_busy {s : State} (h : s.phase = .busy) (o : Host.Outcome State Fault Refusal) :
    accept s o = .next s := if_pos h

theorem accept_of_idle {s : State} (hb : s.phase ≠ .busy) (hsrc : s.srcHas s.srcLen.toNat = true)
    (o : Host.Outcome State Fault Refusal) : accept s o = o := by
  rw [accept, if_neg hb, if_pos hsrc]

theorem accept_of_beyond {s : State} (hb : s.phase ≠ .busy) (hsrc : s.srcHas s.srcLen.toNat = false)
    (o : Host.Outcome State Fault Refusal) : accept s o = .refused .srcLenBeyondCapacity := by
  rw [accept, if_neg hb, if_neg (by rw [hsrc]; decide)]

theorem startCompress_of_tooLarge {s : State}
    (h : Config.nMax < s.srcLen.toNat ∨ s.dstHas (worstCaseOutput s.srcLen.toNat) = false) :
    startCompress s = .next ((s.started .compress).raised .inputTooLarge 0 0) := by
  rw [startCompress]
  split_ifs with hmax hroom
  · rfl
  · rcases h with h | h
    · exact absurd h hmax
    · exact absurd hroom (by rw [h]; decide)
  · rfl

/-- Settles O8. -/
theorem compressStartsItsJob : Obligations.CompressStartsItsJob :=
  fun _ hb hsrc hmax hdst => exec_compress hb hsrc hmax hdst

/-- Settles O9. -/
theorem decompressStartsItsJob : Obligations.DecompressStartsItsJob :=
  fun _ hb hsrc => exec_decompress hb hsrc

/-- Settles O10: either cause of the condition ends the start of the job. -/
theorem compressRaisesInputTooLarge : Obligations.CompressRaisesInputTooLarge :=
  fun s hb hsrc h => (accept_of_idle hb hsrc (startCompress s)).trans (startCompress_of_tooLarge h)

/-- Settles O11: the reserved codes leave every state alone, the commands a busy one. -/
theorem commandsWithoutEffect : Obligations.CommandsWithoutEffect :=
  fun _ => ⟨rfl, rfl, fun hb => ⟨accept_of_busy hb _, accept_of_busy hb _⟩⟩

/-- Settles O12: both commands are refused before their start. -/
theorem jobBeyondSrcCapIsRefused : Obligations.JobBeyondSrcCapIsRefused :=
  fun _ hb hsrc => ⟨accept_of_beyond hb hsrc _, accept_of_beyond hb hsrc _⟩

/-! ## HDR (42_token_decoder.md R161) -/

theorem exec_hdr_of_tooLarge {s : State} {n : HeaderWord} (h : s.dstHas n.toNat = false) :
    exec (.hdr n) s = .next ((s.setWork (s.work.headed n)).raised .outputTooLarge s.work.cursor 4) :=
  if_neg (show ¬ s.dstHas n.toNat = true by rw [h]; decide)

/-- Settles O13. -/
theorem hdrSetsTheLength : Obligations.HdrSetsTheLength := fun _ _ h => exec_hdr h

/-- Settles O14. -/
theorem hdrRaisesOutputTooLarge : Obligations.HdrRaisesOutputTooLarge := fun _ _ h => exec_hdr_of_tooLarge h

/-! ## The token classes (R165 to R177) -/

theorem tokenStep_of_backRef {s : State} {d : Dist} (h : s.work.cursor < d.toNat) (n : Len) (l : Byte) :
    tokenStep d n l s = .next (s.raised (.malformedStream .backRefBeforeStart) s.work.cursor s.work.rp) := if_pos h

theorem tokenStep_of_overrun {s : State} {d : Dist} {n : Len} (hd : d.toNat ≤ s.work.cursor)
    (h : s.work.N < s.work.cursor + span d n) (l : Byte) :
    tokenStep d n l s = .next (s.raised (.malformedStream .overrun) s.work.cursor s.work.rp) := by
  rw [tokenStep, if_neg (Nat.not_lt.2 hd), if_pos h]
  rfl

/-- A token whose effective length is 0 appends its literal at the cursor, whichever class it is of (R173, R176,
R177). -/
theorem tokenStep_of_literal {s : State} {d : Dist} {n : Len} (l : Byte) (heff : effLen d n = 0)
    (hd : d.toNat ≤ s.work.cursor) (hc : s.work.cursor < s.work.N) (hdst : s.dstHas (s.work.cursor + 1) = true) :
    ∃ t, tokenStep d n l s = .next t ∧ t.dst.read s.work.cursor = l ∧
      (∀ a, a ≠ s.work.cursor → t.dst.read a = s.dst.read a) ∧
      t = { s with dst := t.dst, work := { s.work with
              cursor := s.work.cursor + 1, rp := s.work.rp + 3, i := t.work.i } } := by
  have hspan : span d n = 1 := by rw [span, heff]
  refine ⟨_, tokenStep_completes hd (by omega) (by rwa [hspan]), ?literal, fun a ha => ?outside, ?frame⟩
  case literal =>
    have hlit := read_tokenDst_literal s.dst s.work.cursor d n l
    rwa [literalIndex, heff] at hlit
  case outside => exact read_tokenDst_outside _ _ _ _ _ _ (by omega)
  case frame =>
    rw [Working.tokenDone, hspan]
    rfl

/-- Settles O16: each of the three classes has effective length 0. -/
theorem literalTokensAppendOneByte : Obligations.LiteralTokensAppendOneByte := by
  intro s i d n l hi hc hdst
  rcases hi with rfl | rfl | ⟨rfl, hd⟩
  · exact tokenStep_of_literal l (effLen_zero_dist 0) (Nat.zero_le _) hc hdst
  · exact tokenStep_of_literal l (effLen_zero_dist n) (Nat.zero_le _) hc hdst
  · exact tokenStep_of_literal l (effLen_zero_len d) hd hc hdst

/-- Settles O18: the distance is checked first, in both classes that have one. -/
theorem backReferenceBeforeStartRaises : Obligations.BackReferenceBeforeStartRaises := by
  intro s d n l i hi hd
  rcases hi with rfl | rfl
  · exact tokenStep_of_backRef hd n l
  · exact tokenStep_of_backRef hd 0 l

/-- Settles O19: `N - cursor ≤ tlen` is the check's `N < cursor + span`. -/
theorem overrunRaises : Obligations.OverrunRaises := by
  intro s d n l hd hc hroom
  have hne : d ≠ 0 := by
    rintro rfl
    exact absurd hd (by decide)
  have hspan : span d n = n.toNat + 1 := by rw [span, effLen_of_ne hne]
  exact tokenStep_of_overrun hc (by omega) l

/-! ## The encoder's operations (41_token_encoder.md R142 to R147) -/

theorem exec_pack {s : State} (h : s.dstHas (s.work.wp + 3) = true) :
    exec .pack s = .next ((s.setDst (packDst s.dst s.work)).setWork s.work.packed) := State.needDst_of_has h _

theorem exec_encNormal {s : State} (hm : s.work.p + s.work.mlen.toNat < s.work.N)
    (hsrc : s.srcHas (s.work.p + s.work.mlen.toNat + 1) = true) :
    exec .encNormal s = .next (s.setWork (s.work.emitted s.work.mlen
      (s.src.read (s.work.p + s.work.mlen.toNat)) (s.work.mlen.toNat + 1))) :=
  (if_pos (decide_eq_true hm)).trans (State.needSrc_of_has hsrc _)

theorem boundaryMode_iff (w : Working) :
    boundaryMode w = true ↔ 1 ≤ w.mlen.toNat ∧ w.p + w.mlen.toNat = w.N := by
  rw [boundaryMode, Bool.and_eq_true, decide_eq_true_eq, decide_eq_true_eq]

theorem exec_encBoundary {s : State} (h1 : 1 ≤ s.work.mlen.toNat) (hm : s.work.p + s.work.mlen.toNat = s.work.N)
    (hsrc : s.srcHas s.work.N = true) :
    exec .encBoundary s = .next (s.setWork (s.work.emitted (s.work.mlen - 1)
      (s.src.read (s.work.p + s.work.mlen.toNat - 1)) s.work.mlen.toNat)) := by
  refine (if_pos ((boundaryMode_iff _).2 ⟨h1, hm⟩)).trans (State.needSrc_of_has (State.srcHas_mono hsrc ?_) _)
  rw [boundaryLiteral]
  omega

/-- Settles O22: the bytes of `MemWrite`, which read back as the header. -/
theorem encHdrWritesTheLength : Obligations.EncHdrWritesTheLength := by
  intro s hdst hmax
  refine ⟨_, exec_encHdr hdst, fun k hk => ?bytes, Memory.header_memWrite s.dst hmax, fun a ha => ?outside, rfl⟩
  case bytes =>
    have hbyte := Memory.read_memWrite_inside s.dst 0 4 s.work.N k hk
    rw [Nat.zero_add] at hbyte
    exact (congrArg BitVec.toNat hbyte).trans (BitVec.toNat_ofNat _ _)
  case outside => exact Memory.read_memWrite_outside _ _ _ _ _ (.inr (by omega))

/-- Settles O23. -/
theorem encNormalEmitsMatchAndNextByte : Obligations.EncNormalEmitsMatchAndNextByte :=
  fun _ hm hsrc => exec_encNormal hm hsrc

/-- Settles O24: the literal at `p + mlen - 1` is the input's last byte. -/
theorem encBoundaryGivesUpTheLastByte : Obligations.EncBoundaryGivesUpTheLastByte := by
  intro s h1 hm hsrc
  refine ⟨_, exec_encBoundary h1 hm hsrc, BitVec.toNat_sub_of_le h1, ?_⟩
  rw [hm]
  rfl

/-- Settles O25: each mode tests its own condition first. -/
theorem emissionModesKeepToTheirCondition : Obligations.EmissionModesKeepToTheirCondition := by
  refine fun s => ⟨fun hreach => if_neg ?normal, fun hmiss => if_neg ?boundary⟩
  case normal =>
    rw [normalMode, decide_eq_true_eq]
    exact Nat.not_lt.2 hreach
  case boundary =>
    rw [boundaryMode_iff]
    omega

/-- Settles O26: PACK's three bytes decode to the token, by the inverse laws of the word. -/
theorem packAppendsTheToken : Obligations.PackAppendsTheToken := by
  intro s hdst
  obtain ⟨hb0, hb1, hb2⟩ := read_packDst_bytes s.dst s.work
  refine ⟨_, exec_pack hdst, ?word, ?low, ?high, hb2, ?decodes, fun a ha => read_packDst_outside _ _ a ha, rfl⟩
  case word => exact packWord_toNat _ _
  case low => exact (congrArg BitVec.toNat hb0).trans (lowByte_toNat _)
  case high => exact (congrArg BitVec.toNat hb1).trans (highByte_toNat _)
  case decodes =>
    rw [State.setWork_dst, State.setDst_dst, hb0, hb1, hb2, decodeToken_packWord]

end Sys2Proof.Machine

/-! PROOFS. One step: the sequencer's turns and the moves of the host. -/

namespace Sys2Proof.Machine

/-! ## What the decoders read from memory -/

theorem decode_header_readBytes (m : Memory) :
    decode .header (m.readBytes 0 4) = .ok (decodeHeader (m.read 0) (m.read 1) (m.read 2) (m.read 3)) [] := rfl

theorem decode_token_readBytes (m : Memory) (q : Nat) :
    decode .token (m.readBytes q 3) = .ok (decodeToken (m.read q) (m.read (q + 1)) (m.read (q + 2))) [] := rfl

theorem decode_command_singleton (b : Byte) : decode .command [b] = .ok (decodeCommand b) [] := rfl

/-! ## A DECOMPRESS job (42_token_decoder.md R161 to R164) -/

theorem decompressStep_truncatedHeader {s : State} (hrp : s.work.rp = 0) (h : s.srcLen.toNat < Config.headerBytes) :
    decompressStep s = truncatedStream s := by
  rw [decompressStep, if_pos hrp, headerStep, if_pos h]

theorem decompressStep_fetchedHeader {s : State} (hrp : s.work.rp = 0) (h : Config.headerBytes ≤ s.srcLen.toNat)
    (hsrc : s.srcHas Config.headerBytes = true) : decompressStep s = exec (fetchedHeader s) s := by
  rw [decompressStep, if_pos hrp, headerStep, if_neg (Nat.not_lt.2 h), State.needSrc_of_has hsrc]

theorem decompressStep_truncatedToken {s : State} (hrp : s.work.rp ≠ 0) (hc : s.work.cursor < s.work.N)
    (h : s.srcLen.toNat < fetchEnd s.work) : decompressStep s = truncatedStream s := by
  rw [decompressStep, if_neg hrp, if_pos hc, decompressToken, if_pos h]

theorem decompressStep_fetchedToken {s : State} (hrp : s.work.rp ≠ 0) (hc : s.work.cursor < s.work.N)
    (h : fetchEnd s.work ≤ s.srcLen.toNat) (hsrc : s.srcHas (fetchEnd s.work) = true) :
    decompressStep s = exec (fetchedToken s) s.nextUnpacked := by
  rw [decompressStep, if_neg hrp, if_pos hc, decompressToken, if_neg (Nat.not_lt.2 h), State.needSrc_of_has hsrc,
    fetchedUnpack, exec_unpack, andThen_next]
  rfl

/-- Settles O20: the two tests of the fetch come before any byte is read. -/
theorem truncatedStreamRaises : Obligations.TruncatedStreamRaises := by
  intro s hquiet hbusy hop hshort
  rw [step_quiet hquiet, coreStep_decompress hbusy hop]
  rcases hshort with ⟨hrp, hlen⟩ | ⟨hrp, hc, hlen⟩
  · exact decompressStep_truncatedHeader hrp hlen
  · exact decompressStep_truncatedToken hrp hc hlen

/-- Settles O28: UNPACK completes, and the token decoded runs after it. -/
theorem stepRunsTheDecodedToken : Obligations.StepRunsTheDecodedToken := by
  intro s i rest hquiet hbusy hop hrp hc hlen hsrc hdec
  cases (decode_token_readBytes s.src s.work.rp).symm.trans hdec
  refine ⟨_, exec_unpack _ _ _ s, ?_⟩
  rw [step_quiet hquiet, coreStep_decompress hbusy hop]
  exact decompressStep_fetchedToken hrp hc hlen hsrc

/-- Settles O29. -/
theorem stepRunsTheDecodedHeader : Obligations.StepRunsTheDecodedHeader := by
  intro s i rest hquiet hbusy hop hrp hlen hsrc hdec
  cases (decode_header_readBytes s.src).symm.trans hdec
  rw [step_quiet hquiet, coreStep_decompress hbusy hop]
  exact decompressStep_fetchedHeader hrp hlen hsrc

/-! ## A COMPRESS job (41_token_encoder.md R143, R153) -/

/-- The emission's branch is the test of R144, on `p + mlen`. -/
theorem emissionOp_eq (w : Working) :
    emissionOp w = if w.p + w.mlen.toNat < w.N then .encNormal else .encBoundary := by
  simp only [emissionOp, normalMode, decide_eq_true_eq]

/-- A token step is its three operations and the advance, where they complete. -/
theorem compressToken_of_next {s s1 s2 s3 : State} (h1 : exec .mfSearch s = .next s1)
    (h2 : exec (emissionOp s1.work) s1 = .next s2) (h3 : exec .pack s2 = .next s3) :
    compressToken s = .next s3.advanced := by
  rw [compressToken, h1, andThen_next, h2, andThen_next, h3, andThen_next]

/-- Settles O31. -/
theorem stepRunsTheEncoder : Obligations.StepRunsTheEncoder := by
  intro s hquiet hbusy hop
  rw [step_quiet hquiet, coreStep_compress hbusy hop]
  refine ⟨fun hwp => if_pos hwp, fun s1 s2 s3 hwp hp h1 h2 h3 => ?_⟩
  rw [compressStep_token hwp hp]
  exact compressToken_of_next h1 (by rwa [emissionOp_eq]) h3

/-- Settles O32: the loops' conditions fail, so the job ends. -/
theorem jobEndsNormally : Obligations.JobEndsNormally := by
  intro s hquiet hbusy
  rw [step_quiet hquiet]
  refine ⟨fun hop hwp hp => ?compress, fun hop hrp hc => ?decompress⟩
  case compress => exact (coreStep_compress hbusy hop).trans (compressStep_end hwp hp)
  case decompress => exact (coreStep_decompress hbusy hop).trans (decompressStep_end hrp hc)

theorem coreStep_of_notBusy {s : State} (h : s.phase ≠ .busy) : coreStep s = .next s := by
  cases hp : s.phase with
  | busy => exact absurd hp h
  | idle | done | fault => simp only [coreStep, hp]

/-- Settles O33. -/
theorem coreIsStillOutsideBusy : Obligations.CoreIsStillOutsideBusy :=
  fun _ hquiet hb => (step_quiet hquiet).trans (coreStep_of_notBusy hb)

/-! ## The host's moves (43_host_commands.md R196) -/

/-- Settles O30. -/
theorem stepRunsTheCommandWritten : Obligations.StepRunsTheCommandWritten := by
  intro s v l i rest hin hdec
  cases (decode_command_singleton (v.setWidth 8)).symm.trans hdec
  exact step_input hin

/-- STATUS packs the two codes (R24). -/
theorem statusWord_toNat (s : State) : s.statusWord.toNat = s.phase.code.toNat + 4 * s.op.code.toNat := by
  rw [State.statusWord]
  cases s.phase <;> cases s.op <;> rfl

/-- CAUSE packs the two codes (R25). -/
theorem causeWord_toNat (s : State) : s.causeWord.toNat = s.cause.code.toNat + 16 * s.cause.subCode.toNat := by
  rw [State.causeWord]
  match s.cause with
  | .none | .inputTooLarge | .outputTooLarge => rfl
  | .malformedStream .backRefBeforeStart | .malformedStream .overrun | .malformedStream .truncated => rfl

/-- Settles O47: the words' values are those of their codes. -/
theorem statusAndCauseWords : Obligations.StatusAndCauseWords := by
  intro s
  rw [statusWord_toNat, causeWord_toNat]
  constructor
  · cases s.phase <;> cases s.op <;> rfl
  · match s.cause with
    | .none | .inputTooLarge | .outputTooLarge => rfl
    | .malformedStream .backRefBeforeStart | .malformedStream .overrun | .malformedStream .truncated => rfl

/-- Settles O46: the reset values, the words they make, and the two memories as they were. -/
theorem resetInputResetsTheRegisters : Obligations.ResetInputResetsTheRegisters :=
  fun _ _ hin => ⟨_, step_input hin, rfl, rfl, rfl, rfl, rfl, rfl, BitVec.eq_of_toNat_eq (statusWord_toNat _),
    BitVec.eq_of_toNat_eq (causeWord_toNat _), rfl, rfl, rfl, rfl, rfl, rfl, rfl, rfl⟩

/-- Settles O48: one output per phase but IDLE. -/
theorem outputsMirrorThePhase : Obligations.OutputsMirrorThePhase := by
  intro s
  rw [State.busyOut, State.doneOut, State.faultOut]
  cases s.phase <;> decide

/-- Outside BUSY every register has its value; in BUSY three do not. -/
theorem readIsOpen_iff (s : State) (r : Reg) :
    s.readIsOpen r = true ↔ s.phase = .busy ∧ (r = .outLen ∨ r = .inPos ∨ r = .srcLen) := by
  simp [State.readIsOpen, State.busyOut, or_assoc]

theorem hostReadReg_of_open {s : State} {r : Reg} (h : s.readIsOpen r = true) :
    hostReadReg r s = .next ((s.setHostData (Config.freeBits 64 s.freeCount 0)).countFree) := if_pos h

theorem hostReadReg_of_not_open {s : State} {r : Reg} (h : ¬ s.readIsOpen r = true) :
    hostReadReg r s = .next (s.setHostData (s.regWord r)) := if_neg h

@[simp] theorem State.setInputs_statusWord (s : State) (l : List Input) :
    (s.setInputs l).statusWord = s.statusWord := rfl

@[simp] theorem State.setInputs_causeWord (s : State) (l : List Input) :
    (s.setInputs l).causeWord = s.causeWord := rfl

theorem regWord_status_toNat (s : State) : (s.regWord .status).toNat = s.statusWord.toNat :=
  BitVec.toNat_setWidth_of_le (by decide)

theorem regWord_cause_toNat (s : State) : (s.regWord .cause).toNat = s.causeWord.toNat :=
  BitVec.toNat_setWidth_of_le (by decide)

/-- Settles O49: where the read is open the statement fixes no value, elsewhere it is the register's word. -/
theorem hostReadsOfRegisters : Obligations.HostReadsOfRegisters := by
  intro s r l hin
  rw [step_input hin]
  by_cases hopen : (s.setInputs l).readIsOpen r = true
  · refine ⟨_, hostReadReg_of_open hopen, rfl, ?_⟩
    obtain ⟨hb, hr⟩ := (readIsOpen_iff _ r).1 hopen
    rw [State.setInputs_phase] at hb
    rcases hr with rfl | rfl | rfl <;> simp [hb]
  · refine ⟨_, hostReadReg_of_not_open hopen, rfl, ?_⟩
    cases r with
    | cmd | srcLen | outLen | inPos => simp [State.regWord]
    | status => simpa using regWord_status_toNat (s.setInputs l)
    | cause => simpa using regWord_cause_toNat (s.setInputs l)

theorem hostWriteSrcLen_of_notBusy {s : State} (h : s.phase ≠ .busy) (v : Reg64) :
    hostWriteSrcLen v s = .next (s.setSrcLen v) := if_neg h

theorem hostWriteSrcLen_of_ignored {s : State} (h : s.phase = .busy) (hc : s.cfg.srcLenWhileBusy = .ignored)
    (v : Reg64) : hostWriteSrcLen v s = .next s := by
  rw [hostWriteSrcLen, if_pos h, hc]

theorem hostWriteSrcLen_of_noMove {s : State} (h : s.phase = .busy) (hc : s.cfg.srcLenWhileBusy = .noMove)
    (v : Reg64) : hostWriteSrcLen v s = .refused .hostWritesSrcLenWhileBusy := by
  rw [hostWriteSrcLen, if_pos h, hc]

/-- Settles O50: one clause per reading, and one outside BUSY. -/
theorem hostWritesOfSrcLen : Obligations.HostWritesOfSrcLen := by
  intro s v l hin
  rw [step_input hin]
  exact ⟨fun hb => hostWriteSrcLen_of_notBusy (s := s.setInputs l) hb v,
    fun hb hc => hostWriteSrcLen_of_ignored (s := s.setInputs l) hb hc v,
    fun hb hc => hostWriteSrcLen_of_noMove (s := s.setInputs l) hb hc v⟩

theorem hostMemory_of_busy {s : State} (h : s.phase = .busy) (o : Host.Outcome State Fault Refusal) :
    hostMemory s o = .refused .hostTouchesMemoryWhileBusy := if_pos h

theorem hostWriteSrc_of_notBusy {s : State} {a : Nat} (h : s.phase ≠ .busy) (hsrc : s.srcHas (a + 1) = true)
    (b : Byte) : hostWriteSrc a b s = .next (s.setSrc (s.src.write a b)) :=
  (if_neg h).trans (State.needSrc_of_has hsrc _)

theorem hostReadDst_of_notBusy {s : State} {a : Nat} (h : s.phase ≠ .busy) (hdst : s.dstHas (a + 1) = true) :
    hostReadDst a s = .next (s.setHostData ((s.dst.read a).setWidth 64)) :=
  (if_neg h).trans (State.needDst_of_has hdst _)

/-- Settles O51: a write is read back and leaves the other cells; a byte read is zero-extended without loss. -/
theorem hostAccessesToMemory : Obligations.HostAccessesToMemory := by
  refine fun s a b l hb => ⟨fun hin hsrc => ?write, fun hin hdst => ?read⟩
  case write =>
    refine ⟨_, (step_input hin).trans (hostWriteSrc_of_notBusy (s := s.setInputs l) hb hsrc b), ?_, ?_, rfl⟩
    · exact Memory.read_write_same _ _ _
    · exact fun x hx => Memory.read_write_other _ _ hx
  case read =>
    refine ⟨_, (step_input hin).trans (hostReadDst_of_notBusy (s := s.setInputs l) hb hdst), ?_, rfl⟩
    exact BitVec.toNat_setWidth_of_le (by decide)

/-- Settles O52. -/
theorem hostMayNotTouchMemoryWhileBusy : Obligations.HostMayNotTouchMemoryWhileBusy :=
  fun s _ _ l hb => ⟨fun hin => (step_input hin).trans (hostMemory_of_busy (s := s.setInputs l) hb _),
    fun hin => (step_input hin).trans (hostMemory_of_busy (s := s.setInputs l) hb _)⟩

end Sys2Proof.Machine

/-! PROOFS. What one step can do, as one list of cases, and what follows from the list alone. -/

namespace Sys2Proof.Machine

/-! ## The core's turn -/

theorem State.outPointer_compress {s : State} (h : s.op = .compress) : s.outPointer = s.work.wp := by
  rw [State.outPointer, h]

theorem State.outPointer_decompress {s : State} (h : s.op = .decompress) : s.outPointer = s.work.cursor := by
  rw [State.outPointer, h]

/-- The core's turn worked on the job: it wrote working registers, and DST only from the output pointer's old value up
to its new one. -/
structure Worked (s t : State) : Prop where
  frame : t = (s.setDst t.dst).setWork t.work
  forward : s.outPointer ≤ t.outPointer
  outside : ∀ a, a < s.outPointer ∨ t.outPointer ≤ a → t.dst.read a = s.dst.read a
  room : s.outPointer < t.outPointer → s.dstHas t.outPointer = true
  dstWf : s.dst.wf → t.dst.wf

/-- Everything the core's turn can do (43_host_commands.md R193): nothing outside BUSY; a step of the job; its end; a
condition, which only a DECOMPRESS raises, with no more than HDR's writes before it (60_exceptions.md R215). -/
inductive CoreTurn (s t : State) : Prop where
  | still (notBusy : s.phase ≠ .busy) (same : t = s)
  | worked (busy : s.phase = .busy) (work : Worked s t)
  | compressed (busy : s.phase = .busy) (op : s.op = .compress) (headed : s.work.wp ≠ 0) (atEnd : s.work.N ≤ s.work.p)
      (same : t = s.finished s.work.wp s.work.p)
  | decompressed (busy : s.phase = .busy) (op : s.op = .decompress) (headed : s.work.rp ≠ 0)
      (atEnd : s.work.N ≤ s.work.cursor) (same : t = s.finished s.work.cursor s.work.rp)
  | raised (busy : s.phase = .busy) (op : s.op = .decompress) (c : Cause) (w : Working)
      (cursor : w.cursor = s.work.cursor)
      (precise : (c = .outputTooLarge ∧ s.work.rp = 0 ∧ w.rp = 4) ∨
        ((∃ sub, c = .malformedStream sub) ∧ w.rp = s.work.rp))
      (same : t = (s.setWork w).raised c s.work.cursor w.rp)

/-- A malformed stream is raised before anything but UNPACK's fields is written. -/
theorem CoreTurn.malformed {s t : State} (busy : s.phase = .busy) (op : s.op = .decompress) (sub : SubCause)
    (w : Working) (hcursor : w.cursor = s.work.cursor) (hrp : w.rp = s.work.rp)
    (same : t = (s.setWork w).raised (.malformedStream sub) s.work.cursor s.work.rp) : CoreTurn s t := by
  rw [← hrp] at same
  exact .raised busy op _ w hcursor (.inr ⟨⟨sub, rfl⟩, hrp⟩) same

theorem coreTurn_of_compressStep {s t : State} (busy : s.phase = .busy) (op : s.op = .compress)
    (h : compressStep s = .next t) : CoreTurn s t := by
  have hout : ∀ m w, State.outPointer ((s.setDst m).setWork w) = w.wp := fun _ _ => State.outPointer_compress op
  have hs := State.outPointer_compress op
  rcases compressStep_eq_next h with ⟨hwp, hroom, rfl⟩ | ⟨-, -, hdone⟩ | ⟨hwp, hp, same⟩
  · refine .worked busy ⟨rfl, ?_, fun a ha => ?_, fun _ => ?_, fun hwf => Memory.memWrite_wf hwf _ _ _⟩
    · omega
    · rw [hout, hs] at ha
      exact Memory.read_memWrite_outside _ _ _ _ _ (by simp only at ha; omega)
    · rw [hout]
      exact hroom
  · have ht : t.outPointer = s.work.wp + 3 := by
      rw [hdone.frame, hout, hdone.wp]
    refine .worked busy ⟨hdone.frame, by omega, fun a ha => ?_, fun _ => ?_, hdone.dstWf⟩
    · exact hdone.outside a (by omega)
    · rw [ht]
      exact hdone.room
  · exact .compressed busy op hwp hp same

theorem coreTurn_of_decompressStep {s t : State} (busy : s.phase = .busy) (op : s.op = .decompress)
    (h : decompressStep s = .next t) : CoreTurn s t := by
  have hout : ∀ m w, State.outPointer ((s.setDst m).setWork w) = w.cursor := fun _ _ => State.outPointer_decompress op
  have hs := State.outPointer_decompress op
  rcases decompressStep_eq_next h with ⟨-, -, same⟩ | ⟨hrp, -, -, hhdr⟩ | ⟨-, -, htoken⟩ | ⟨hrp, hc, same⟩
  · exact .malformed busy op .truncated s.work rfl rfl same
  · rcases execHdr_eq_next hhdr with ⟨-, rfl⟩ | ⟨-, same⟩
    · have ht : State.outPointer (s.setWork (s.work.headed (headerOfBytes (s.src.read 0) (s.src.read 1)
          (s.src.read 2) (s.src.read 3)))) = s.outPointer := (hout s.dst _).trans hs.symm
      exact .worked busy ⟨rfl, ht.ge, fun _ _ => rfl, fun hlt => absurd hlt (by omega), id⟩
    · exact .raised busy op _ (s.work.headed _) rfl (.inl ⟨rfl, hrp, rfl⟩) same
  · rcases decompressToken_eq_next htoken with ⟨-, same⟩ | ⟨-, -, hstep⟩
    · exact .malformed busy op .truncated s.work rfl rfl same
    · rcases tokenStep_eq_next hstep with ⟨-, same⟩ | ⟨-, -, same⟩ | ⟨-, -, hroom, rfl⟩
      · exact .malformed busy op .backRefBeforeStart s.nextUnpacked.work rfl rfl same
      · exact .malformed busy op .overrun s.nextUnpacked.work rfl rfl same
      · have hspan := span_bounds s.nextDist s.nextLen
        have ht : State.outPointer ((s.nextUnpacked.setDst (tokenDst s.dst s.work.cursor s.nextDist s.nextLen
            s.nextLit)).setWork (s.nextUnpacked.work.tokenDone s.nextDist s.nextLen)) =
            s.work.cursor + span s.nextDist s.nextLen := hout _ _
        refine .worked busy ⟨rfl, ?_, fun a ha => ?_, fun _ => ?_, fun hwf => tokenDst_wf hwf _ _ _ _⟩
        · exact hs.trans_le ((Nat.le_add_right _ _).trans ht.ge)
        · refine read_tokenDst_outside _ _ _ _ _ _ (ha.imp (fun h => ?_) fun h => ?_)
          · exact h.trans_eq hs
          · exact ht.ge.trans h
        · exact (congrArg s.dstHas ht).trans hroom
  · exact .decompressed busy op hrp hc same

theorem coreTurn_of_coreStep {s t : State} (h : coreStep s = .next t) : CoreTurn s t := by
  rcases coreStep_eq_next h with ⟨hb, same⟩ | ⟨busy, op, h⟩ | ⟨busy, op, h⟩
  · exact .still hb same
  · exact coreTurn_of_compressStep busy op h
  · exact coreTurn_of_decompressStep busy op h

/-- The core's turn writes the phase, the report registers, the working registers and DST; no other field. -/
theorem CoreTurn.frame {s t : State} (h : CoreTurn s t) :
    t = { s with phase := t.phase, cause := t.cause, outLen := t.outLen, inPos := t.inPos, work := t.work,
                 dst := t.dst } := by
  cases h with
  | still notBusy same => rw [same]
  | worked busy work => rw [work.frame]; rfl
  | compressed busy op headed atEnd same => rw [same]; rfl
  | decompressed busy op headed atEnd same => rw [same]; rfl
  | raised busy op c w cursor precise same => rw [same]; rfl

/-- Settles O41, from the frame of the core's turn. -/
theorem coreTurnLeavesItsInputAlone : Obligations.CoreTurnLeavesItsInputAlone := by
  intro s t h
  rw [(coreTurn_of_coreStep h).frame]
  exact ⟨rfl, rfl, rfl, rfl, rfl, rfl, rfl⟩

/-- Settles O42: only a step of the job moves its output pointer or writes DST. -/
theorem outputIsAppendOnly : Obligations.OutputIsAppendOnly := by
  intro s t h
  cases coreTurn_of_coreStep h with
  | still notBusy same =>
    rw [same]
    exact ⟨le_rfl, fun _ _ => rfl⟩
  | worked busy work => exact ⟨work.forward, work.outside⟩
  | compressed busy op headed atEnd same =>
    rw [same]
    exact ⟨le_rfl, fun _ _ => rfl⟩
  | decompressed busy op headed atEnd same =>
    rw [same]
    exact ⟨le_rfl, fun _ _ => rfl⟩
  | raised busy op c w cursor precise same =>
    have ht : t.outPointer = s.outPointer := by
      rw [same, State.outPointer_decompress op, ← cursor]
      exact State.outPointer_decompress op
    rw [ht, same]
    exact ⟨le_rfl, fun _ _ => rfl⟩

/-- Settles O43: of the turns of a running job only a condition ends in FAULT. -/
theorem conditionsArePrecise : Obligations.ConditionsArePrecise := by
  intro s t hb h hf
  cases coreTurn_of_coreStep h with
  | still notBusy same => exact absurd hb notBusy
  | worked busy work =>
    rw [work.frame, State.setWork_phase, State.setDst_phase, hb] at hf
    cases hf
  | compressed busy op headed atEnd same =>
    rw [same, State.finished_phase] at hf
    cases hf
  | decompressed busy op headed atEnd same =>
    rw [same, State.finished_phase] at hf
    cases hf
  | raised busy op c w cursor precise same =>
    rw [same]
    exact ⟨op, rfl, cursor, rfl, rfl, precise⟩

/-! ## A command -/

/-- Everything a write of `v` to CMD can do (10_state.md R22, R41): nothing, or the start of a job. -/
inductive CommandDone (v : Reg64) (s : State) : State → Prop where
  | none : CommandDone v s s
  | tooLarge (code : v.toNat % 4 = 1) (notBusy : s.phase ≠ .busy) :
      CommandDone v s ((s.started .compress).raised .inputTooLarge 0 0)
  | compress (code : v.toNat % 4 = 1) (notBusy : s.phase ≠ .busy) (cells : s.srcHas s.srcLen.toNat = true)
      (fits : s.srcLen.toNat ≤ Config.nMax) (room : s.dstHas (worstCaseOutput s.srcLen.toNat) = true) :
      CommandDone v s ((s.started .compress).setWork { s.work with N := s.srcLen.toNat, p := 0, wp := 0 })
  | decompress (code : v.toNat % 4 = 2) (notBusy : s.phase ≠ .busy) (cells : s.srcHas s.srcLen.toNat = true) :
      CommandDone v s ((s.started .decompress).setWork { s.work with cursor := 0, rp := 0 })

theorem commandDone_of_exec {v : Reg64} {s t : State} (h : exec (commandOf v) s = .next t) : CommandDone v s t := by
  have hv : v.toNat % 4 < 4 := Nat.mod_lt _ (by decide)
  interval_cases hcode : v.toNat % 4
  · rw [commandOf_eq_cmdReserved0 hcode] at h
    cases h
    exact .none
  · rw [commandOf_eq_compress hcode] at h
    rcases accept_eq_next h with ⟨-, rfl⟩ | ⟨hb, hsrc, hstart⟩
    · exact .none
    · rcases startCompress_eq_next hstart with ⟨-, rfl⟩ | ⟨hmax, hroom, rfl⟩
      · exact .tooLarge hcode hb
      · exact .compress hcode hb hsrc hmax hroom
  · rw [commandOf_eq_decompress hcode] at h
    rcases accept_eq_next h with ⟨-, rfl⟩ | ⟨hb, hsrc, hstart⟩
    · exact .none
    · cases hstart
      exact .decompress hcode hb hsrc
  · rw [commandOf_eq_cmdReserved3 hcode] at h
    cases h
    exact .none

/-! ## A move -/

/-- Everything a move can do, the move having been taken off the list. -/
inductive Moved (s : State) : Input → State → Prop where
  | core {t : State} (turn : coreStep s = .next t) : Moved s .core t
  | reset : Moved s .reset s.afterReset
  | writeSrc (a : Nat) (b : Byte) (notBusy : s.phase ≠ .busy) (cell : s.srcHas (a + 1) = true) :
      Moved s (.writeSrc a b) (s.setSrc (s.src.write a b))
  | writeSrcLen (v : Reg64) (notBusy : s.phase ≠ .busy) : Moved s (.writeSrcLen v) (s.setSrcLen v)
  | ignored (v : Reg64) : Moved s (.writeSrcLen v) s
  | writeCmd {t : State} (v : Reg64) (done : CommandDone v s t) : Moved s (.writeCmd v) t
  | readReg (r : Reg) (v : Reg64) : Moved s (.readReg r) (s.setHostData v)
  | readOpen (r : Reg) (v : Reg64) : Moved s (.readReg r) (s.setHostData v).countFree
  | readDst (a : Nat) (v : Reg64) : Moved s (.readDst a) (s.setHostData v)

theorem moved_of_inputStep {i : Input} {s t : State} (h : inputStep i s = .next t) : Moved s i t := by
  cases i with
  | core => exact .core h
  | reset =>
    cases h
    exact .reset
  | writeSrc a b =>
    obtain ⟨hb, h⟩ := hostMemory_eq_next h
    obtain ⟨hcell, h⟩ := State.needSrc_eq_next h
    cases h
    exact .writeSrc a b hb hcell
  | writeSrcLen v =>
    rcases hostWriteSrcLen_eq_next h with ⟨-, -, rfl⟩ | ⟨hb, rfl⟩
    · exact .ignored v
    · exact .writeSrcLen v hb
  | writeCmd v => exact .writeCmd v (commandDone_of_exec h)
  | readReg r =>
    by_cases hopen : s.readIsOpen r = true
    · cases (hostReadReg_of_open hopen).symm.trans h
      exact .readOpen r _
    · cases (hostReadReg_of_not_open hopen).symm.trans h
      exact .readReg r _
  | readDst a =>
    obtain ⟨-, h⟩ := hostMemory_eq_next h
    obtain ⟨-, h⟩ := State.needDst_eq_next h
    cases h
    exact .readDst a _

theorem step_eq_next {s t : State} (h : step s = .next t) :
    (s.inputs = [] ∧ coreStep s = .next t) ∨ ∃ i l, s.inputs = i :: l ∧ Moved (s.setInputs l) i t := by
  cases hin : s.inputs with
  | nil => exact .inl ⟨rfl, (step_quiet hin).symm.trans h⟩
  | cons i l => exact .inr ⟨i, l, rfl, moved_of_inputStep ((step_input hin).symm.trans h)⟩

/-! ## The report registers and the parameters -/

/-- STATUS, CAUSE, OUT_LEN and IN_POS are the same in both states. -/
def SameReport (s t : State) : Prop :=
  t.phase = s.phase ∧ t.op = s.op ∧ t.cause = s.cause ∧ t.outLen = s.outLen ∧ t.inPos = s.inPos

theorem SameReport.refl (s : State) : SameReport s s := ⟨rfl, rfl, rfl, rfl, rfl⟩

/-- A turn of the core changes the report registers only where it ends the job. -/
theorem CoreTurn.report {s t : State} (h : CoreTurn s t) :
    SameReport s t ∨ (s.phase = .busy ∧ t.op = s.op ∧ (t.phase = .done ∨ t.phase = .fault)) := by
  cases h with
  | still notBusy same =>
    rw [same]
    exact .inl (.refl s)
  | worked busy work =>
    rw [work.frame]
    exact .inl (.refl s)
  | compressed busy op headed atEnd same =>
    rw [same]
    exact .inr ⟨busy, rfl, .inl rfl⟩
  | decompressed busy op headed atEnd same =>
    rw [same]
    exact .inr ⟨busy, rfl, .inl rfl⟩
  | raised busy op c w cursor precise same =>
    rw [same]
    exact .inr ⟨busy, rfl, .inr rfl⟩

/-- A command changes them only where it starts a job. -/
theorem CommandDone.report {v : Reg64} {s t : State} (h : CommandDone v s t) :
    SameReport s t ∨ ((v.toNat % 4 = 1 ∨ v.toNat % 4 = 2) ∧ s.phase ≠ .busy ∧ (t.phase = .busy ∨ t.phase = .fault)) := by
  cases h with
  | none => exact .inl (.refl s)
  | tooLarge code notBusy => exact .inr ⟨.inl code, notBusy, .inr rfl⟩
  | compress code notBusy cells fits room => exact .inr ⟨.inl code, notBusy, .inl rfl⟩
  | decompress code notBusy cells => exact .inr ⟨.inr code, notBusy, .inl rfl⟩

/-- Settles O44: the core's turn, a reset and a command are the only steps that write these registers. -/
theorem reportRegistersChangeOnlyByTransition : Obligations.ReportRegistersChangeOnlyByTransition := by
  intro s t h
  rcases step_eq_next h with ⟨hin, hcore⟩ | ⟨i, l, hin, hmoved⟩
  · rcases (coreTurn_of_coreStep hcore).report with hsame | hend
    · exact .inl hsame
    · exact .inr (.inr (.inr ⟨.inl hin, hend⟩))
  · have hhead : s.inputs.head? = some i := by
      rw [hin]
      rfl
    cases hmoved with
    | core turn =>
      rcases (coreTurn_of_coreStep turn).report with hsame | hend
      · exact .inl hsame
      · exact .inr (.inr (.inr ⟨.inr hhead, hend⟩))
    | reset => exact .inr (.inl ⟨hhead, rfl⟩)
    | writeCmd v done =>
      rcases done.report with hsame | ⟨hcode, hstart⟩
      · exact .inl hsame
      · exact .inr (.inr (.inl ⟨⟨v, hhead, hcode⟩, hstart⟩))
    | writeSrc | writeSrcLen | ignored | readReg | readOpen | readDst => exact .inl (SameReport.refl s)

theorem CommandDone.cfg {v : Reg64} {s t : State} (h : CommandDone v s t) : t.cfg = s.cfg := by
  cases h <;> rfl

/-- Settles O45. -/
theorem parametersNeverChange : Obligations.ParametersNeverChange := by
  intro s t h
  rcases step_eq_next h with ⟨-, hcore⟩ | ⟨i, l, -, hmoved⟩
  · rw [(coreTurn_of_coreStep hcore).frame]
  · cases hmoved with
    | core turn => rw [(coreTurn_of_coreStep turn).frame]; rfl
    | writeCmd v done => exact done.cfg
    | reset | writeSrc | writeSrcLen | ignored | readReg | readOpen | readDst => rfl

end Sys2Proof.Machine

/-! PROOFS. The invariant: what it says of the memories and of the job, each kept by every step; the core's progress
and the end of both jobs. -/

namespace Sys2Proof.Machine

/-! ## The parts of the invariant -/

/-- The invariant's part about the two memories. -/
structure MemInv (s : State) : Prop where
  srcWf : s.src.wf
  dstWf : s.dst.wf
  srcCells : ∀ a, s.src.read a ≠ Memory.fill → s.srcHas (a + 1) = true
  dstCells : ∀ a, s.dst.read a ≠ Memory.fill → s.dstHas (a + 1) = true

/-- The invariant's part about the job, by its phases. -/
inductive JobInv (s : State) : Prop where
  | idle (phase : s.phase = .idle) (op : s.op = .none) (cause : s.cause = .none)
      (cleared : s.outLen = 0 ∧ s.inPos = 0)
  | compressing (phase : s.phase = .busy) (op : s.op = .compress) (cause : s.cause = .none)
      (cleared : s.outLen = 0 ∧ s.inPos = 0) (job : Encoding s)
  | decompressing (phase : s.phase = .busy) (op : s.op = .decompress) (cause : s.cause = .none)
      (cleared : s.outLen = 0 ∧ s.inPos = 0) (job : Decoding s)
  | compressed (phase : s.phase = .done) (op : s.op = .compress) (cause : s.cause = .none) (result : Encoded s)
  | decompressed (phase : s.phase = .done) (op : s.op = .decompress) (cause : s.cause = .none)
      (result : DecodedStream s)
  | inputTooLarge (phase : s.phase = .fault) (op : s.op = .compress) (cause : s.cause = .inputTooLarge)
  | raised (phase : s.phase = .fault) (op : s.op = .decompress) (some : s.cause ≠ .none)
      (cause : s.cause ≠ .inputTooLarge)

theorem Inv.memInv {s : State} (h : Inv s) : MemInv s := ⟨h.srcWf, h.dstWf, h.srcCells, h.dstCells⟩

theorem Inv.cause_of_busy {s : State} (h : Inv s) (hb : s.phase = .busy) : s.cause = .none := by
  by_contra hc
  have hf := h.cause.1 hc
  rw [hb] at hf
  cases hf

theorem Inv.op_of_busy {s : State} (h : Inv s) (hb : s.phase = .busy) : s.op = .compress ∨ s.op = .decompress := by
  cases hop : s.op with
  | none =>
    have hi := h.op.1 hop
    rw [hb] at hi
    cases hi
  | compress => exact .inl rfl
  | decompress => exact .inr rfl

/-- The two parts make the invariant: every clause about the job is decided by the phase, op and CAUSE of its case. -/
theorem MemInv.inv {s : State} (m : MemInv s) (j : JobInv s) : Inv s := by
  refine ⟨m.srcWf, m.dstWf, m.srcCells, m.dstCells, ?_, ?_, ?_, ?_, ?_, ?_, ?_, ?_⟩ <;> cases j <;> simp [*]

/-- Settles O34. -/
theorem resetMeetsTheInvariant : Obligations.ResetMeetsTheInvariant := by
  refine MemInv.inv ⟨Memory.nil_wf, Memory.nil_wf, fun a ha => ?_, fun a ha => ?_⟩ (.idle rfl rfl rfl ⟨rfl, rfl⟩)
  · exact absurd (Memory.read_nil a) ha
  · exact absurd (Memory.read_nil a) ha

/-! ## The memories -/

/-- Cells written within a capacity keep the contents within it. -/
theorem cells_of_outside {cap : Option Nat} {m m' : Memory} {lo hi : Nat}
    (h : ∀ a, m.read a ≠ Memory.fill → hasCells cap (a + 1) = true)
    (houtside : ∀ a, a < lo ∨ hi ≤ a → m'.read a = m.read a) (hroom : lo < hi → hasCells cap hi = true) (a : Nat)
    (ha : m'.read a ≠ Memory.fill) : hasCells cap (a + 1) = true := by
  by_cases hin : a < lo ∨ hi ≤ a
  · rw [houtside a hin] at ha
    exact h a ha
  · exact hasCells_mono (hroom (by omega)) (by omega)

theorem MemInv.worked {s t : State} (m : MemInv s) (h : Worked s t) : MemInv t := by
  have hdst := cells_of_outside m.dstCells h.outside h.room
  have hwf := h.dstWf m.dstWf
  rw [h.frame]
  exact ⟨m.srcWf, hwf, m.srcCells, hdst⟩

/-- A host write of a cell SRC has. -/
theorem MemInv.setSrc {s : State} (m : MemInv s) {a : Nat} (b : Byte) (h : s.srcHas (a + 1) = true) :
    MemInv (s.setSrc (s.src.write a b)) := by
  refine ⟨Memory.write_wf m.srcWf a b, m.dstWf, ?_, m.dstCells⟩
  refine cells_of_outside (lo := a) (hi := a + 1) m.srcCells (fun x hx => ?_) fun _ => h
  exact Memory.read_write_other _ _ (by omega)

/-! ## The end of a job -/

theorem Encoding.encoded {s : State} (h : Encoding s) (headed : s.work.wp ≠ 0) :
    Encoded (s.finished s.work.wp s.work.p) := by
  have hmax : s.work.N ≤ 4294967295 := h.fits
  obtain ⟨hwp, -⟩ | ⟨k, hwp, hk, hk16, hpN⟩ := h.progress
  · exact absurd hwp headed
  · refine ⟨k, ?_⟩
    simp only [State.finished_outLen, State.finished_inPos, BitVec.toNat_ofNat, Config.nMax]
    omega

theorem Decoding.decodedStream {s : State} (h : Decoding s) (headed : s.work.rp ≠ 0) :
    DecodedStream (s.finished s.work.cursor s.work.rp) := by
  have hlen := s.srcLen.isLt
  obtain ⟨hrp, -⟩ | ⟨k, hrp, hend, hk, hk16, hcN, hmax, -⟩ := h.progress
  · exact absurd hrp headed
  · refine ⟨k, ?_⟩
    simp only [State.finished_outLen, State.finished_inPos, BitVec.toNat_ofNat, Config.nMax] at hmax ⊢
    omega

/-! ## Every step keeps the invariant -/

theorem Inv.of_turn {s t : State} (h : Inv s) (ht : coreStep s = .next t) : Inv t := by
  cases coreTurn_of_coreStep ht with
  | still notBusy same => rwa [same]
  | worked busy work =>
    have hbusy : t.phase = .busy := by rw [work.frame]; exact busy
    have hcause : t.cause = .none := by rw [work.frame]; exact h.cause_of_busy busy
    have hcleared : t.outLen = 0 ∧ t.inPos = 0 := by rw [work.frame]; exact h.cleared (.inr busy)
    refine (h.memInv.worked work).inv ?_
    rcases h.op_of_busy busy with hop | hop
    · have hop' : t.op = .compress := by rw [work.frame]; exact hop
      rw [coreStep_compress busy hop] at ht
      exact .compressing hbusy hop' hcause hcleared ((h.encoding busy hop).next ht hbusy)
    · have hop' : t.op = .decompress := by rw [work.frame]; exact hop
      rw [coreStep_decompress busy hop] at ht
      exact .decompressing hbusy hop' hcause hcleared ((h.decoding busy hop).next ht hbusy)
  | compressed busy op headed atEnd same =>
    rw [same]
    exact MemInv.inv ⟨h.srcWf, h.dstWf, h.srcCells, h.dstCells⟩
      (.compressed rfl op (h.cause_of_busy busy) ((h.encoding busy op).encoded headed))
  | decompressed busy op headed atEnd same =>
    rw [same]
    exact MemInv.inv ⟨h.srcWf, h.dstWf, h.srcCells, h.dstCells⟩
      (.decompressed rfl op (h.cause_of_busy busy) ((h.decoding busy op).decodedStream headed))
  | raised busy op c w cursor precise same =>
    have hc : c ≠ .none ∧ c ≠ .inputTooLarge := by
      rcases precise with ⟨rfl, -⟩ | ⟨⟨sub, rfl⟩, -⟩ <;> exact ⟨nofun, nofun⟩
    rw [same]
    exact MemInv.inv ⟨h.srcWf, h.dstWf, h.srcCells, h.dstCells⟩ (.raised rfl op hc.1 hc.2)

theorem Inv.of_command {s t : State} {v : Reg64} (h : Inv s) (hc : CommandDone v s t) : Inv t := by
  have hm := h.memInv
  cases hc with
  | none => exact h
  | tooLarge code notBusy =>
    exact MemInv.inv ⟨hm.srcWf, hm.dstWf, hm.srcCells, hm.dstCells⟩ (.inputTooLarge rfl rfl rfl)
  | compress code notBusy cells fits room =>
    exact MemInv.inv ⟨hm.srcWf, hm.dstWf, hm.srcCells, hm.dstCells⟩
      (.compressing rfl rfl rfl ⟨rfl, rfl⟩ ⟨rfl, fits, cells, room, .inl ⟨rfl, rfl⟩⟩)
  | decompress code notBusy cells =>
    exact MemInv.inv ⟨hm.srcWf, hm.dstWf, hm.srcCells, hm.dstCells⟩
      (.decompressing rfl rfl rfl ⟨rfl, rfl⟩ ⟨cells, .inl ⟨rfl, rfl⟩⟩)

/-- The invariant does not speak of the list of moves, of what the host read or of the model's own counter. -/
theorem Inv.hostSide {s : State} (h : Inv s) (l : List Input) (v : Reg64) (n : Nat) :
    Inv { s with inputs := l, hostData := v, freeCount := n } := by
  refine ⟨h.srcWf, h.dstWf, h.srcCells, h.dstCells, h.cause, h.op, h.cleared, h.raiser, fun hb ho => ?_,
    fun hb ho => ?_, h.encoded, h.decoded⟩
  · obtain ⟨length, fits, srcCells, dstCells, progress⟩ := h.encoding hb ho
    exact ⟨length, fits, srcCells, dstCells, progress⟩
  · obtain ⟨srcCells, progress⟩ := h.decoding hb ho
    exact ⟨srcCells, progress⟩

/-- Outside BUSY the host may write SRC and SRC_LEN: no job depends on them. -/
theorem Inv.setInput {s : State} (h : Inv s) (hb : s.phase ≠ .busy) {m : Memory} (hm : MemInv (s.setSrc m))
    (v : Reg64) : Inv ((s.setSrc m).setSrcLen v) :=
  ⟨hm.srcWf, hm.dstWf, hm.srcCells, hm.dstCells, h.cause, h.op, h.cleared, h.raiser, fun hb' => absurd hb' hb,
    fun hb' => absurd hb' hb, h.encoded, h.decoded⟩

theorem Inv.of_move {s t : State} {i : Input} (h : Inv s) (hi : Moved s i t) : Inv t := by
  cases hi with
  | core turn => exact h.of_turn turn
  | reset => exact MemInv.inv ⟨h.srcWf, h.dstWf, h.srcCells, h.dstCells⟩ (.idle rfl rfl rfl ⟨rfl, rfl⟩)
  | writeSrc a b notBusy cell => exact h.setInput notBusy (h.memInv.setSrc b cell) s.srcLen
  | writeSrcLen v notBusy => exact h.setInput notBusy (m := s.src) h.memInv v
  | ignored v => exact h
  | writeCmd v done => exact h.of_command done
  | readReg r v => exact h.hostSide s.inputs v s.freeCount
  | readOpen r v => exact h.hostSide s.inputs v (s.freeCount + 1)
  | readDst a v => exact h.hostSide s.inputs v s.freeCount

/-- Settles O35: the core's turn keeps the invariant, and so does every move. -/
theorem stepKeepsTheInvariant : Obligations.StepKeepsTheInvariant := by
  intro s t h ht
  rcases step_eq_next ht with ⟨-, hcore⟩ | ⟨i, l, -, hmoved⟩
  · exact h.of_turn hcore
  · exact Inv.of_move (h.hostSide l s.hostData s.freeCount) hmoved

/-- Settles O36: the steps of both jobs complete under what the invariant says of a running job. -/
theorem coreTurnNeverStops : Obligations.CoreTurnNeverStops := by
  intro s h hquiet
  rw [step_quiet hquiet]
  by_cases hb : s.phase = .busy
  · rcases h.op_of_busy hb with hop | hop
    · rw [coreStep_compress hb hop]
      exact (h.encoding hb hop).completes
    · rw [coreStep_decompress hb hop]
      exact (h.decoding hb hop).completes
  · exact ⟨s, coreStep_of_notBusy hb⟩

/-! ## Runs of bounded length -/

/-- At most `n` steps lead to a state with the property. -/
def ReachesWithin (n : Nat) (s : State) (P : State → Prop) : Prop := ∃ k t, k ≤ n ∧ run k s = .next t ∧ P t

theorem ReachesWithin.now {n : Nat} {s : State} {P : State → Prop} (h : P s) : ReachesWithin n s P :=
  ⟨0, s, Nat.zero_le n, rfl, h⟩

theorem ReachesWithin.of_step {m n : Nat} {s s' : State} {P : State → Prop} (hs : step s = .next s')
    (h : ReachesWithin m s' P) (hmn : m < n) : ReachesWithin n s P := by
  obtain ⟨k, t, hk, hrun, ht⟩ := h
  refine ⟨k + 1, t, by omega, ?_, ht⟩
  rw [run, hs, andThen_next, hrun]

/-! ## The end of a COMPRESS job (41_token_encoder.md R149, R150) -/

/-- How a COMPRESS job of `n` bytes ends. -/
structure CompressResult (n : Nat) (srcLen : Reg64) (t : State) : Prop where
  phase : t.phase = .done
  cause : t.cause = .none
  inPos : t.inPos = srcLen
  tokens : ∃ T, n ≤ 16 * T ∧ T ≤ n ∧ t.outLen.toNat = 4 + 3 * T

theorem Compressing.result {s : State} (h : Compressing s) (hcause : s.cause = .none) (headed : s.work.wp ≠ 0)
    (hp : s.work.N ≤ s.work.p) : CompressResult s.work.N s.srcLen (s.finished s.work.wp s.work.p) := by
  have hmax : s.work.N ≤ 4294967295 := h.encoding.fits
  obtain ⟨hwp, -⟩ | ⟨k, hwp, hk, hk16, hpN⟩ := h.encoding.progress
  · exact absurd hwp headed
  · refine ⟨rfl, hcause, ?inPos, k, by omega, by omega, ?outLen⟩
    case inPos =>
      rw [State.finished_inPos, le_antisymm hpN hp, h.encoding.length, BitVec.ofNat_toNat, BitVec.setWidth_eq]
    case outLen =>
      rw [State.finished_outLen, BitVec.toNat_ofNat]
      omega

/-- Each token step advances `p`, so the loop takes at most `N - p` of them. -/
theorem Compressing.ends {s : State} (h : Compressing s) (hcause : s.cause = .none) (headed : s.work.wp ≠ 0) :
    ReachesWithin (s.work.N - s.work.p + 1) s (CompressResult s.work.N s.srcLen) := by
  induction hleft : s.work.N - s.work.p using Nat.strong_induction_on generalizing s with
  | _ left ih =>
    rcases Nat.lt_or_ge s.work.p s.work.N with hp | hp
    · obtain ⟨t, ht⟩ := h.encoding.completes
      have hdone := compressToken_eq_next hp.le ((compressStep_token headed hp).symm.trans ht)
      have hN := hdone.N
      have hpos := hdone.p
      have hadv := hdone.adv
      have hwp := hdone.wp
      have hsrcLen : t.srcLen = s.srcLen := by rw [hdone.frame]; rfl
      have hcause' : t.cause = .none := by rw [hdone.frame]; exact hcause
      have hrest := ih _ (by omega) (h.next ht hdone.frame) hcause' (by omega) rfl
      rw [hN, hsrcLen] at hrest
      exact .of_step (h.step_eq.trans ht) hrest (by omega)
    · exact .of_step (m := 0) (h.step_eq.trans (compressStep_end headed hp)) (.now (h.result hcause headed hp))
        (by omega)

/-- Settles O37: the header step, then the loop. -/
theorem compressEndsDone : Obligations.CompressEndsDone := by
  intro s hinv hquiet hbusy hop hwp
  have h : Compressing s := ⟨hquiet, hbusy, hop, hinv.encoding hbusy hop⟩
  have hstep := compressStep_header hwp (State.dstHas_mono h.encoding.dstCells (Nat.le_add_right _ _))
  have hrest := (h.next hstep rfl).ends (hinv.cause_of_busy hbusy) (by simp)
  obtain ⟨k, t, hk, hrun, ht⟩ := ReachesWithin.of_step (n := s.work.N + 2) (h.step_eq.trans hstep) hrest
    (Nat.succ_lt_succ (Nat.lt_succ_of_le (Nat.sub_le _ _)))
  exact ⟨k, t, hk, hrun, ht.phase, ht.cause, ht.inPos, ht.tokens⟩

/-! ## The end of a DECOMPRESS job (42_token_decoder.md R172) -/

/-- A running DECOMPRESS job, with no move of the environment pending. -/
structure DecompressRunning (s : State) : Prop where
  quiet : s.inputs = []
  busy : s.phase = .busy
  op : s.op = .decompress
  decoding : Decoding s

theorem DecompressRunning.step_eq {s : State} (h : DecompressRunning s) : step s = decompressStep s := by
  rw [step_quiet h.quiet, coreStep_decompress h.busy h.op]

theorem DecompressRunning.next {s t : State} (h : DecompressRunning s) (ht : decompressStep s = .next t)
    (hframe : t = (s.setDst t.dst).setWork t.work) : DecompressRunning t := by
  have hbusy : t.phase = .busy := by
    rw [hframe]
    exact h.busy
  refine ⟨?_, hbusy, ?_, h.decoding.next ht hbusy⟩
  · rw [hframe]
    exact h.quiet
  · rw [hframe]
    exact h.op

/-- How a DECOMPRESS job of a stream that announces `n` bytes ends. -/
def DecompressResult (n : Nat) (t : State) : Prop := (t.phase = .done ∧ t.outLen.toNat = n) ∨ t.phase = .fault

/-- The job goes on after a token: it consumed three bytes of the stream and gave at least one. -/
structure DecompressGoesOn (s t : State) : Prop where
  due : s.work.cursor < s.work.N
  whole : s.work.rp + 3 ≤ s.srcLen.toNat
  running : DecompressRunning t
  srcLen : t.srcLen = s.srcLen
  N : t.work.N = s.work.N
  rp : t.work.rp = s.work.rp + 3
  cursor : s.work.cursor < t.work.cursor

/-- After the header every step ends the job or goes on. -/
theorem DecompressRunning.ends_or_goesOn {s : State} (h : DecompressRunning s) (headed : s.work.rp ≠ 0) :
    ∃ t, step s = .next t ∧ (DecompressResult s.work.N t ∨ DecompressGoesOn s t) := by
  obtain ⟨t, ht⟩ := h.decoding.completes
  refine ⟨t, h.step_eq.trans ht, ?_⟩
  rcases decompressStep_eq_next ht with ⟨hrp, -⟩ | ⟨hrp, -⟩ | ⟨-, hc, htoken⟩ | ⟨-, hc, rfl⟩
  · exact absurd hrp headed
  · exact absurd hrp headed
  · rcases decompressToken_eq_next htoken with ⟨-, rfl⟩ | ⟨hlen, -, hstep⟩
    · exact .inl (.inr rfl)
    · rcases tokenStep_eq_next hstep with ⟨-, rfl⟩ | ⟨-, -, rfl⟩ | ⟨-, -, -, rfl⟩
      · exact .inl (.inr rfl)
      · exact .inl (.inr rfl)
      · have hspan := (span_bounds s.nextDist s.nextLen).1
        exact .inr ⟨hc, hlen, h.next ht rfl, rfl, rfl, rfl, Nat.lt_add_of_pos_right hspan⟩
  · obtain ⟨hrp, -⟩ | ⟨k, -, -, -, -, hcN, hmax, -⟩ := h.decoding.progress
    · exact absurd hrp headed
    · refine .inl (.inl ⟨rfl, ?_⟩)
      rw [State.finished_outLen, BitVec.toNat_ofNat]
      simp only [Config.nMax] at hmax
      omega

/-- The loop takes at most one token per byte still due, and one per three bytes left. -/
theorem DecompressRunning.ends {s : State} (h : DecompressRunning s) (headed : s.work.rp ≠ 0) :
    ReachesWithin (min (s.work.N - s.work.cursor) ((s.srcLen.toNat - s.work.rp) / 3) + 1) s
      (DecompressResult s.work.N) := by
  induction hleft : s.work.N - s.work.cursor using Nat.strong_induction_on generalizing s with
  | _ left ih =>
    obtain ⟨t, hstep, hend | ⟨hdue, hwhole, hrunning, hsrcLen, hN, hrp, hcursor⟩⟩ := h.ends_or_goesOn headed
    · exact .of_step (m := 0) hstep (.now hend) (by omega)
    · have hrest := ih _ (by omega) hrunning (by omega) rfl
      rw [hN, hsrcLen, hrp] at hrest
      exact .of_step hstep hrest (by omega)

/-- Settles O38: a header that cannot be read or kept ends the job at once; after it the loop ends. -/
theorem decompressEnds : Obligations.DecompressEnds := by
  intro s hinv hquiet hbusy hop hrp
  have h : DecompressRunning s := ⟨hquiet, hbusy, hop, hinv.decoding hbusy hop⟩
  obtain ⟨t, ht⟩ := h.decoding.completes
  have hstep := h.step_eq.trans ht
  have hcursor : s.work.cursor = 0 := by
    obtain ⟨-, hc⟩ | ⟨k, hk, -⟩ := h.decoding.progress
    · exact hc
    · omega
  suffices hfinal : ReachesWithin (min s.src.header.toNat ((s.srcLen.toNat - 4) / 3) + 2) s
      (DecompressResult s.src.header.toNat) by
    obtain ⟨k, u, hk, hrun, hu⟩ := hfinal
    exact ⟨k, u, hk, hrun, hu⟩
  rcases decompressStep_eq_next ht with ⟨-, -, rfl⟩ | ⟨-, -, -, hhdr⟩ | ⟨hne, -⟩ | ⟨hne, -⟩
  · exact .of_step (m := 0) hstep (.now (.inr rfl)) (by omega)
  · rcases execHdr_eq_next hhdr with ⟨-, rfl⟩ | ⟨-, rfl⟩
    · refine .of_step hstep ((h.next ht rfl).ends (Nat.succ_ne_zero _)) ?_
      rw [State.setWork_work, Working.headed_N, Working.headed_cursor, Working.headed_rp, hcursor]
      exact Nat.lt_succ_self _
    · exact .of_step (m := 0) hstep (.now (.inr rfl)) (by omega)
  · exact absurd hrp hne
  · exact absurd hrp hne

end Sys2Proof.Machine

/-! PROOFS. The core's turn carries the list of moves along (log 6). -/

namespace Sys2Proof.Machine

/-- Put the moves `l` into the next state, if there is one. -/
def carry (l : List Input) (o : Host.Outcome State Fault Refusal) : Host.Outcome State Fault Refusal :=
  andThen o fun t => .next (t.setInputs l)

/-- An operation does not look at the list of moves: it carries another list along. -/
def Carries (f : State → Host.Outcome State Fault Refusal) : Prop := ∀ l s, f (s.setInputs l) = carry l (f s)

theorem carry_ite (l : List Input) (c : Prop) [Decidable c] (a b : Host.Outcome State Fault Refusal) :
    carry l (if c then a else b) = if c then carry l a else carry l b := apply_ite _ _ _ _

theorem carry_needSrc (l : List Input) (s : State) (n : Nat) (o : Host.Outcome State Fault Refusal) :
    carry l (s.needSrc n o) = (s.setInputs l).needSrc n (carry l o) := carry_ite _ _ _ _

theorem carry_needDst (l : List Input) (s : State) (n : Nat) (o : Host.Outcome State Fault Refusal) :
    carry l (s.needDst n o) = (s.setInputs l).needDst n (carry l o) := carry_ite _ _ _ _

theorem Carries.andThen {f g : State → Host.Outcome State Fault Refusal} (hf : Carries f) (hg : Carries g) :
    Carries fun s => andThen (f s) g := by
  intro l s
  show Machine.andThen (f (s.setInputs l)) g = carry l (Machine.andThen (f s) g)
  rw [hf l s]
  cases f s with
  | next t => exact hg l t
  | fault r => rfl
  | refused r => rfl

/-! ## The operations -/

theorem carries_mfSearch : Carries (exec .mfSearch) := by
  intro l s
  show _ = carry l (execMfSearch s)
  rw [execMfSearch, carry_needSrc]
  rfl

theorem carries_encHdr : Carries (exec .encHdr) := by
  intro l s
  show _ = carry l (execEncHdr s)
  rw [execEncHdr, carry_needDst]
  rfl

theorem carries_pack : Carries (exec .pack) := by
  intro l s
  show _ = carry l (execPack s)
  rw [execPack, carry_needDst]
  rfl

theorem carries_encNormal : Carries (exec .encNormal) := by
  intro l s
  show _ = carry l (execEncNormal s)
  rw [execEncNormal, carry_ite, carry_needSrc]
  rfl

theorem carries_encBoundary : Carries (exec .encBoundary) := by
  intro l s
  show _ = carry l (execEncBoundary s)
  rw [execEncBoundary, carry_ite, carry_needSrc]
  rfl

theorem carries_emission : Carries fun s => exec (emissionOp s.work) s := by
  intro l s
  show exec (emissionOp s.work) (s.setInputs l) = carry l (exec (emissionOp s.work) s)
  rw [emissionOp]
  split_ifs
  · exact carries_encNormal l s
  · exact carries_encBoundary l s

theorem carries_hdr (n : HeaderWord) : Carries (exec (.hdr n)) := by
  intro l s
  show _ = carry l (execHdr n s)
  rw [execHdr, carry_ite]
  rfl

theorem carries_tokenStep (d : Dist) (n : Len) (b : Byte) : Carries (tokenStep d n b) := by
  intro l s
  conv_rhs => rw [tokenStep, carry_ite, carry_ite, carry_needDst]
  rfl

/-! ## The steps of the jobs -/

theorem carries_compressToken : Carries compressToken :=
  carries_mfSearch.andThen (carries_emission.andThen (carries_pack.andThen fun _ _ => rfl))

theorem carries_compressStep : Carries compressStep := by
  intro l s
  conv_rhs => rw [compressStep, carry_ite, carry_ite, ← carries_encHdr, ← carries_compressToken]
  rfl

theorem carries_headerStep : Carries headerStep := by
  intro l s
  conv_rhs => rw [headerStep, carry_ite, carry_needSrc, fetchedHeader, decodeHeader, ← carries_hdr]
  rfl

theorem carries_decompressToken : Carries decompressToken := by
  intro l s
  conv_rhs => rw [decompressToken, carry_ite, carry_needSrc, fetchedUnpack, exec_unpack, andThen_next,
    exec_fetchedToken, ← carries_tokenStep, ← exec_fetchedToken]
  rfl

theorem carries_decompressStep : Carries decompressStep := by
  intro l s
  conv_rhs => rw [decompressStep, carry_ite, carry_ite, ← carries_headerStep, ← carries_decompressToken]
  rfl

theorem carries_coreStep : Carries coreStep := by
  intro l s
  by_cases hb : s.phase = .busy
  · cases hop : s.op with
    | none => simp [coreStep, hb, hop, carry]
    | compress =>
      rw [coreStep_compress hb hop, ← carries_compressStep]
      exact coreStep_compress hb hop
    | decompress =>
      rw [coreStep_decompress hb hop, ← carries_decompressStep]
      exact coreStep_decompress hb hop
  · rw [coreStep_of_notBusy hb]
    exact coreStep_of_notBusy hb

/-- Settles O53: the core's turn answers the same with every list of moves, and carries the list along. -/
theorem coreMoveIsACoreTurn : Obligations.CoreMoveIsACoreTurn := by
  intro s l hin
  have hstep : step s = carry l (step { s with inputs := [] }) := by
    rw [step_input hin, step_quiet (s := { s with inputs := [] }) rfl]
    exact carries_coreStep l { s with inputs := [] }
  refine ⟨step_input hin, fun t ht => ?_, fun r hr => ?_, fun r hr => ?_⟩
  · rw [hstep, ht]
    rfl
  · rw [hstep, hr]
    rfl
  · rw [hstep, hr]
    rfl

end Sys2Proof.Machine

/-! PROOFS. Two machines side by side: a job depends on its input and on its own output alone (20_memory.md R62, R64,
R81; 70_reset_and_hazards.md R256). -/

namespace Sys2Proof.Machine

/-! ## The token a COMPRESS step packs -/

/-- What an emission mode writes beside the match's distance. -/
structure Emission where
  tlen : Len
  lit : Byte
  adv : Nat

/-- The emission at `p` for a match of length `len`, in the mode R144 chooses. -/
def emission (src : Memory) (n p : Nat) (len : Len) : Emission :=
  if p + len.toNat < n then { tlen := len, lit := src.read (p + len.toNat), adv := len.toNat + 1 }
  else { tlen := len - 1, lit := src.read (p + len.toNat - 1), adv := len.toNat }

/-- The working registers after an emission. -/
def Working.emit (w : Working) (e : Emission) : Working := w.emitted e.tlen e.lit e.adv

/-- The emission of the search's match at `p`. -/
def tokenEmission (src : Memory) (n p : Nat) : Emission := emission src n p (BitVec.ofNat 4 (search src n p).bl)

/-- The working registers after MF.SEARCH and the emission. -/
def Working.coded (w : Working) (src : Memory) : Working :=
  (w.searched (search src w.N w.p)).emit (tokenEmission src w.N w.p)

/-- The registers after PACK and the advance (R147, R148). -/
def Working.packedAndAdvanced (w : Working) : Working := { w.packed with p := w.p + w.adv }

theorem exec_emissionOp_eq_next {s t : State} (h : exec (emissionOp s.work) s = .next t) :
    t = s.setWork (s.work.emit (emission s.src s.work.N s.work.p s.work.mlen)) := by
  rw [emissionOp_eq] at h
  rw [emission]
  split_ifs at h ⊢
  · exact (execEncNormal_eq_next h).2
  · exact (execEncBoundary_eq_next h).2

/-- The state a token step of COMPRESS leads to, written out. -/
theorem compressToken_eq_coded {s t : State} (h : compressToken s = .next t) :
    t = (s.setDst (packDst s.dst (s.work.coded s.src))).setWork (s.work.coded s.src).packedAndAdvanced := by
  obtain ⟨s1, h1, h⟩ := andThen_eq_next h
  obtain ⟨s2, h2, h⟩ := andThen_eq_next h
  obtain ⟨s3, h3, h⟩ := andThen_eq_next h
  obtain ⟨-, rfl⟩ := execMfSearch_eq_next h1
  obtain rfl := exec_emissionOp_eq_next h2
  obtain ⟨-, rfl⟩ := execPack_eq_next h3
  cases h
  rfl

section
variable {src src' : Memory} {n p : Nat} (h : ∀ a, a < n → src'.read a = src.read a) (hp : p < n)
include h hp

/-- The emission reads SRC below `N` alone: past the match in normal mode, the match's last byte else. -/
theorem tokenEmission_congr : tokenEmission src' n p = tokenEmission src n p := by
  obtain ⟨h15, -, -, hend, -⟩ := search_bounds (src := src) hp.le
  have hlen : (BitVec.ofNat 4 (search src n p).bl).toNat = (search src n p).bl := by
    rw [BitVec.toNat_ofNat]
    omega
  rw [tokenEmission, tokenEmission, search_congr h, emission, emission, hlen]
  split_ifs with hmode
  · rw [h _ hmode]
  · rw [h _ (by omega)]

theorem Working.coded_congr {w : Working} (hN : w.N = n) (hwp : w.p = p) : w.coded src' = w.coded src := by
  subst hN hwp
  rw [Working.coded, Working.coded, search_congr h, tokenEmission_congr h hp]

end

/-- PACK's output depends on the token and on the output before it. -/
theorem packDst_agree {m m' : Memory} {w w' : Working} (hwp : w'.wp = w.wp) (hdist : w'.tdist = w.tdist)
    (hlen : w'.tlen = w.tlen) (hlit : w'.lit = w.lit) (h : ∀ a, a < w.wp → m'.read a = m.read a) {a : Nat}
    (ha : a < w.wp + 3) : (packDst m' w').read a = (packDst m w).read a := by
  obtain ⟨h0, h1, h2⟩ := read_packDst_bytes m w
  obtain ⟨h0', h1', h2'⟩ := read_packDst_bytes m' w'
  rw [hwp, hdist, hlen] at h0' h1'
  rw [hwp, hlit] at h2'
  obtain hold | rfl | rfl | rfl : a < w.wp ∨ a = w.wp ∨ a = w.wp + 1 ∨ a = w.wp + 2 := by omega
  · rw [read_packDst_outside _ _ _ (.inl (hwp ▸ hold)), read_packDst_outside _ _ _ (.inl hold), h a hold]
  · rw [h0', h0]
  · rw [h1', h1]
  · rw [h2', h2]

/-! ## Two machines that run the same job -/

/-- The same parameters, and the same input. -/
structure SameInput (s u : State) : Prop where
  cfg : u.cfg = s.cfg
  srcLen : u.srcLen = s.srcLen
  src : ∀ a, a < s.srcLen.toNat → u.src.read a = s.src.read a

theorem SameInput.srcHas {s u : State} (h : SameInput s u) (n : Nat) : u.srcHas n = s.srcHas n := by
  rw [State.srcHas, h.cfg, State.srcHas]

theorem SameInput.dstHas {s u : State} (h : SameInput s u) (n : Nat) : u.dstHas n = s.dstHas n := by
  rw [State.dstHas, h.cfg, State.dstHas]

/-- The working registers that the next step of a job reads; before the header a DECOMPRESS job has no `N`. -/
inductive SamePointers (w w' : Working) : Op → Prop where
  | compress (N : w'.N = w.N) (p : w'.p = w.p) (wp : w'.wp = w.wp) : SamePointers w w' .compress
  | decompress (cursor : w'.cursor = w.cursor) (rp : w'.rp = w.rp) (N : w.rp ≠ 0 → w'.N = w.N) :
      SamePointers w w' .decompress

/-- A running job and its like in another machine, which may differ in its other working registers, in SRC at or above
SRC_LEN and in DST at or above the output pointer. -/
structure SameJob (s u : State) : Prop where
  input : SameInput s u
  report : SameReport s u
  pointers : SamePointers s.work u.work s.op
  output : ∀ a, a < s.outPointer → u.dst.read a = s.dst.read a

/-- A step of the job and its like in the other machine. -/
structure SameStep (s u t t' : State) : Prop where
  job : SameJob t t'
  work : u.work = s.work → t'.work = t.work

theorem SameJob.compress {s u : State} (h : SameJob s u) (hop : s.op = .compress) :
    u.work.N = s.work.N ∧ u.work.p = s.work.p ∧ u.work.wp = s.work.wp ∧
    ∀ a, a < s.work.wp → u.dst.read a = s.dst.read a := by
  obtain ⟨-, -, hptr, hout⟩ := h
  rw [State.outPointer_compress hop] at hout
  rw [hop] at hptr
  cases hptr with
  | compress N p wp => exact ⟨N, p, wp, hout⟩

theorem SameJob.decompress {s u : State} (h : SameJob s u) (hop : s.op = .decompress) :
    u.work.cursor = s.work.cursor ∧ u.work.rp = s.work.rp ∧ (s.work.rp ≠ 0 → u.work.N = s.work.N) ∧
    ∀ a, a < s.work.cursor → u.dst.read a = s.dst.read a := by
  obtain ⟨-, -, hptr, hout⟩ := h
  rw [State.outPointer_decompress hop] at hout
  rw [hop] at hptr
  cases hptr with
  | decompress cursor rp N => exact ⟨cursor, rp, N, hout⟩

/-- Like jobs end alike. -/
theorem SameJob.finished {s u : State} (h : SameJob s u) (o i : Nat) : SameJob (s.finished o i) (u.finished o i) := by
  obtain ⟨hin, ⟨-, hop, hcause, -, -⟩, hptr, hout⟩ := h
  exact ⟨⟨hin.cfg, hin.srcLen, hin.src⟩, ⟨rfl, hop, hcause, rfl, rfl⟩, hptr, hout⟩

/-- Like jobs raise the same condition alike. -/
theorem SameJob.raised {s u : State} (h : SameJob s u) (c : Cause) (o i : Nat) :
    SameJob (s.raised c o i) (u.raised c o i) := by
  obtain ⟨hin, ⟨-, hop, -, -, -⟩, hptr, hout⟩ := h
  exact ⟨⟨hin.cfg, hin.srcLen, hin.src⟩, ⟨rfl, hop, rfl, rfl, rfl⟩, hptr, hout⟩

/-! ## The steps of a COMPRESS job -/

section
variable {s u : State} (h : SameJob s u) (hop : s.op = .compress)
include h hop

/-- A step that writes DST and working registers leaves like jobs, if it does so alike. -/
theorem SameJob.compressWorked {m m' : Memory} {w w' : Working} (hN : w'.N = w.N) (hp : w'.p = w.p)
    (hwp : w'.wp = w.wp) (hout : ∀ a, a < w.wp → m'.read a = m.read a) :
    SameJob ((s.setDst m).setWork w) ((u.setDst m').setWork w') := by
  refine ⟨⟨h.input.cfg, h.input.srcLen, h.input.src⟩, h.report, ?_, fun a ha => hout a ?_⟩
  · rw [State.setWork_op, State.setDst_op, hop]
    exact .compress hN hp hwp
  · exact ha.trans_eq (State.outPointer_compress hop)

/-- ENC.HDR writes the same header. -/
theorem SameJob.of_encHdr (hwp : s.work.wp = 0) (hroom : s.dstHas 4 = true) {t : State} (ht : compressStep s = .next t) :
    ∃ t', compressStep u = .next t' ∧ SameStep s u t t' := by
  obtain ⟨hN, hp, hwp', -⟩ := h.compress hop
  cases (compressStep_header hwp hroom).symm.trans ht
  refine ⟨_, compressStep_header (hwp'.trans hwp) ((h.input.dstHas 4).trans hroom),
    h.compressWorked hop hN hp rfl fun a ha => ?_, fun hw => ?_⟩
  · have hbyte := fun m : Memory => Memory.read_memWrite_inside m 0 4 s.work.N a ha
    simp only [Nat.zero_add] at hbyte
    rw [hN, hbyte, hbyte]
  · rw [State.setWork_work, State.setWork_work, hw]

/-- The token step packs the same token. -/
theorem SameJob.of_compressToken (hsrc : s.work.N = s.srcLen.toNat) (hwp : s.work.wp ≠ 0) (hdue : s.work.p < s.work.N)
    {t : State} (ht : compressStep s = .next t) : ∃ t', compressStep u = .next t' ∧ SameStep s u t t' := by
  obtain ⟨hN, hp, hwp', hout⟩ := h.compress hop
  have hdue' : u.work.p < u.work.N := by omega
  have hread : ∀ a, a < s.work.N → u.src.read a = s.src.read a := fun a ha => h.input.src a (hsrc ▸ ha)
  rw [compressStep_token hwp hdue] at ht
  have hdone := compressToken_eq_next hdue.le ht
  obtain ⟨t', ht'⟩ := compressToken_completes (s := u) hdue' (by rw [hN, h.input.srcHas]; exact hdone.srcCells)
    (by rw [hwp', h.input.dstHas]; exact hdone.room)
  refine ⟨t', (compressStep_token (by omega) hdue').trans ht', ?_⟩
  obtain rfl := compressToken_eq_coded ht
  obtain rfl := compressToken_eq_coded ht'
  have hcoded : u.work.coded u.src = u.work.coded s.src := Working.coded_congr hread hdue hN hp
  have htoken : tokenEmission s.src u.work.N u.work.p = tokenEmission s.src s.work.N s.work.p := by rw [hN, hp]
  rw [hcoded]
  refine ⟨h.compressWorked hop hN ?advance ?wp ?output, fun hw => ?work⟩
  case advance => exact congrArg₂ (· + ·) hp (congrArg Emission.adv htoken)
  case wp => exact congrArg (· + 3) hwp'
  case output =>
    intro a ha
    refine packDst_agree (w := s.work.coded s.src) (w' := u.work.coded s.src) hwp' ?_ (congrArg Emission.tlen htoken)
      (congrArg Emission.lit htoken) hout ha
    exact congrArg₂ (fun n p => BitVec.ofNat 12 (search s.src n p).bd) hN hp
  case work => rw [State.setWork_work, State.setWork_work, hw]

end

/-- COMPRESS runs alike on like jobs. -/
theorem SameJob.of_compressStep {s u t : State} (h : SameJob s u) (hop : s.op = .compress) (henc : Encoding s)
    (ht : compressStep s = .next t) : ∃ t', compressStep u = .next t' ∧ SameStep s u t t' := by
  by_cases hhead : s.work.wp = 0
  · exact h.of_encHdr hop hhead (State.dstHas_mono henc.dstCells (Nat.le_add_right _ _)) ht
  · by_cases hdue : s.work.p < s.work.N
    · exact h.of_compressToken hop henc.length hhead hdue ht
    · obtain ⟨hN, hp, hwp, -⟩ := h.compress hop
      cases (compressStep_end hhead (not_lt.1 hdue)).symm.trans ht
      have ht' := compressStep_end (s := u) (by omega) (by omega)
      rw [hwp, hp] at ht'
      exact ⟨_, ht', h.finished _ _, id⟩

/-! ## The steps of a DECOMPRESS job -/

section
variable {s u : State} (h : SameJob s u) (hop : s.op = .decompress)
include h hop

/-- A step that writes DST and working registers leaves like jobs, if it does so alike. -/
theorem SameJob.decompressWorked {m m' : Memory} {w w' : Working} (hcursor : w'.cursor = w.cursor)
    (hrp : w'.rp = w.rp) (hN : w.rp ≠ 0 → w'.N = w.N) (hout : ∀ a, a < w.cursor → m'.read a = m.read a) :
    SameJob ((s.setDst m).setWork w) ((u.setDst m').setWork w') := by
  refine ⟨⟨h.input.cfg, h.input.srcLen, h.input.src⟩, h.report, ?_, fun a ha => hout a ?_⟩
  · rw [State.setWork_op, State.setDst_op, hop]
    exact .decompress hcursor hrp hN
  · exact ha.trans_eq (State.outPointer_decompress hop)

theorem SameJob.of_truncated {t : State} (ht : truncatedStream s = .next t) :
    ∃ t', truncatedStream u = .next t' ∧ SameStep s u t t' := by
  obtain ⟨hcursor, hrp, -, -⟩ := h.decompress hop
  obtain rfl := raise_eq_next ht
  have ht' : truncatedStream u = raise u (.malformedStream .truncated) u.work.cursor u.work.rp := rfl
  rw [hcursor, hrp] at ht'
  exact ⟨_, ht', h.raised _ _ _, id⟩

/-- HDR answers alike: the header is input, and the capacity is a parameter. -/
theorem SameJob.of_hdr (n : HeaderWord) {t : State} (ht : exec (.hdr n) s = .next t) :
    ∃ t', exec (.hdr n) u = .next t' ∧ SameStep s u t t' := by
  obtain ⟨hcursor, -, -, hout⟩ := h.decompress hop
  have hjob : SameJob (s.setWork (s.work.headed n)) (u.setWork (u.work.headed n)) :=
    h.decompressWorked hop (m := s.dst) (m' := u.dst) hcursor rfl (fun _ => rfl) hout
  have hwork : u.work = s.work → u.work.headed n = s.work.headed n := congrArg (Working.headed · n)
  rcases execHdr_eq_next ht with ⟨hroom, rfl⟩ | ⟨hroom, rfl⟩
  · exact ⟨_, exec_hdr ((h.input.dstHas _).trans hroom), hjob, hwork⟩
  · have ht' := exec_hdr_of_tooLarge ((h.input.dstHas _).trans hroom)
    rw [hcursor] at ht'
    exact ⟨_, ht', hjob.raised _ _ _, hwork⟩

/-- A token's meaning is the same: both checks, and the bytes it appends. -/
theorem SameJob.of_tokenStep (headed : s.work.rp ≠ 0) (d : Dist) (n : Len) (l : Byte) {t : State}
    (ht : tokenStep d n l s = .next t) : ∃ t', tokenStep d n l u = .next t' ∧ SameStep s u t t' := by
  obtain ⟨hcursor, hrp, hN, hout⟩ := h.decompress hop
  have hN' := hN headed
  rcases tokenStep_eq_next ht with ⟨hback, rfl⟩ | ⟨hd, hover, rfl⟩ | ⟨hd, hfits, hroom, rfl⟩
  · have ht' := tokenStep_of_backRef (s := u) (hcursor ▸ hback) n l
    rw [hcursor, hrp] at ht'
    exact ⟨_, ht', h.raised _ _ _, id⟩
  · have ht' := tokenStep_of_overrun (s := u) (d := d) (n := n) (by omega) (by omega) l
    rw [hcursor, hrp] at ht'
    exact ⟨_, ht', h.raised _ _ _, id⟩
  · have ht' := tokenStep_completes (s := u) (d := d) (n := n) (l := l) (by omega) (by omega)
      (by rw [hcursor, h.input.dstHas]; exact hroom)
    refine ⟨_, ht', h.decompressWorked hop ?cursor ?rp (fun _ => hN') ?output, fun hw => ?work⟩
    case cursor => exact congrArg (· + span d n) hcursor
    case rp => exact congrArg (· + 3) hrp
    case output =>
      intro a ha
      rw [hcursor]
      exact tokenDst_agree n l hd hout a ha
    case work => rw [State.setWork_work, State.setWork_work, hw]

/-- UNPACK writes the same fields. -/
theorem SameJob.unpack (b0 b1 b2 : Byte) :
    SameJob (s.setWork (s.work.unpacked b0 b1 b2)) (u.setWork (u.work.unpacked b0 b1 b2)) := by
  obtain ⟨hcursor, hrp, hN, hout⟩ := h.decompress hop
  exact h.decompressWorked hop (m := s.dst) (m' := u.dst) hcursor hrp hN hout

/-- The token at `rp` is input. -/
theorem SameJob.of_fetchedToken (headed : s.work.rp ≠ 0) (hlen : s.work.rp + 3 ≤ s.srcLen.toNat) {t : State}
    (ht : exec (fetchedToken s) s.nextUnpacked = .next t) :
    ∃ t', exec (fetchedToken u) u.nextUnpacked = .next t' ∧ SameStep s u t t' := by
  obtain ⟨-, hrp, -, -⟩ := h.decompress hop
  have h0 := h.input.src s.work.rp (by omega)
  have h1 := h.input.src (s.work.rp + 1) (by omega)
  have h2 := h.input.src (s.work.rp + 2) (by omega)
  have hunpacked : u.nextUnpacked = u.setWork (u.work.unpacked (s.src.read s.work.rp) (s.src.read (s.work.rp + 1))
      (s.src.read (s.work.rp + 2))) := by rw [State.nextUnpacked, hrp, h0, h1, h2]
  have htoken : fetchedToken u = fetchedToken s := by
    rw [fetchedToken, hrp, h0, h1, h2, fetchedToken]
  rw [exec_fetchedToken] at ht
  obtain ⟨t', ht', hjob, hwork⟩ := (h.unpack hop _ _ _).of_tokenStep hop headed _ _ _ ht
  rw [htoken, exec_fetchedToken, hunpacked]
  refine ⟨t', ht', hjob, fun hw => hwork ?_⟩
  rw [State.setWork_work, State.setWork_work, hw]

end

/-- DECOMPRESS runs alike on like jobs. -/
theorem SameJob.of_decompressStep {s u t : State} (h : SameJob s u) (hop : s.op = .decompress) (hdec : Decoding s)
    (ht : decompressStep s = .next t) : ∃ t', decompressStep u = .next t' ∧ SameStep s u t t' := by
  obtain ⟨hcursor, hrp, hN, -⟩ := h.decompress hop
  have hsrcLen := h.input.srcLen
  have hsrc : u.srcHas s.srcLen.toNat = true := (h.input.srcHas _).trans hdec.srcCells
  by_cases hhead : s.work.rp = 0
  · have hhead' := hrp.trans hhead
    rcases Nat.lt_or_ge s.srcLen.toNat Config.headerBytes with hlen | hlen
    · rw [decompressStep_truncatedHeader hhead hlen] at ht
      rw [decompressStep_truncatedHeader hhead' (by rwa [hsrcLen])]
      exact h.of_truncated hop ht
    · have hheader : u.src.header = s.src.header := Memory.header_congr fun a ha => h.input.src a (ha.trans_le hlen)
      rw [decompressStep_fetchedHeader hhead hlen (State.srcHas_mono hdec.srcCells hlen)] at ht
      rw [decompressStep_fetchedHeader hhead' (by rwa [hsrcLen]) (State.srcHas_mono hsrc hlen),
        show fetchedHeader u = .hdr u.src.header from rfl, hheader]
      exact h.of_hdr hop _ ht
  · have hhead' : u.work.rp ≠ 0 := by omega
    have hN' := hN hhead
    have hfetch : fetchEnd u.work = fetchEnd s.work := congrArg (· + 3) hrp
    rcases Nat.lt_or_ge s.work.cursor s.work.N with hdue | hend
    · have hdue' : u.work.cursor < u.work.N := by omega
      rcases Nat.lt_or_ge s.srcLen.toNat (fetchEnd s.work) with hlen | hlen
      · rw [decompressStep_truncatedToken hhead hdue hlen] at ht
        rw [decompressStep_truncatedToken hhead' hdue' (by rwa [hsrcLen, hfetch])]
        exact h.of_truncated hop ht
      · rw [decompressStep_fetchedToken hhead hdue hlen (State.srcHas_mono hdec.srcCells hlen)] at ht
        rw [decompressStep_fetchedToken hhead' hdue' (by rwa [hsrcLen, hfetch])
          (by rw [hfetch]; exact State.srcHas_mono hsrc hlen)]
        exact h.of_fetchedToken hop hhead hlen ht
    · cases (decompressStep_end hhead hend).symm.trans ht
      have ht' := decompressStep_end (s := u) hhead' (by omega)
      rw [hcursor, hrp] at ht'
      exact ⟨_, ht', h.finished _ _, id⟩

/-! ## The core's turn -/

/-- What the invariant says of a running job. -/
inductive Running (s : State) : Prop where
  | compress (op : s.op = .compress) (job : Encoding s)
  | decompress (op : s.op = .decompress) (job : Decoding s)

/-- The core's turn is the same on like jobs. -/
theorem SameJob.of_coreStep {s u t : State} (h : SameJob s u) (hb : s.phase = .busy) (hrun : Running s)
    (ht : coreStep s = .next t) : ∃ t', coreStep u = .next t' ∧ SameStep s u t t' := by
  have hb' : u.phase = .busy := h.report.1.trans hb
  have hopEq : u.op = s.op := h.report.2.1
  cases hrun with
  | compress op job =>
    rw [coreStep_compress hb op] at ht
    rw [coreStep_compress hb' (hopEq.trans op)]
    exact h.of_compressStep op job ht
  | decompress op job =>
    rw [coreStep_decompress hb op] at ht
    rw [coreStep_decompress hb' (hopEq.trans op)]
    exact h.of_decompressStep op job ht

theorem Inv.running {s : State} (h : Inv s) (hb : s.phase = .busy) : Running s :=
  (h.op_of_busy hb).elim (fun op => .compress op (h.encoding hb op)) fun op => .decompress op (h.decoding hb op)

theorem SamePointers.refl {w : Working} {op : Op} (h : op ≠ .none) : SamePointers w w op := by
  cases op with
  | none => exact absurd rfl h
  | compress => exact .compress rfl rfl rfl
  | decompress => exact .decompress rfl rfl fun _ => rfl

theorem Running.op_ne_none {s : State} (h : Running s) : s.op ≠ .none := by
  cases h with
  | compress op job => rw [op]; decide
  | decompress op job => rw [op]; decide

/-- Settles O54: the machine with other bytes runs a like job, with the same working registers. -/
theorem coreTurnReadsOnlyItsInput : Obligations.CoreTurnReadsOnlyItsInput := by
  intro s t m m' hinv ht hsrc hdst
  by_cases hb : s.phase = .busy
  · have hrun := hinv.running hb
    have hjob : SameJob s { s with src := m, dst := m' } :=
      ⟨⟨rfl, rfl, hsrc⟩, .refl s, .refl hrun.op_ne_none, hdst⟩
    obtain ⟨t', ht', hjob', hwork⟩ := hjob.of_coreStep hb hrun ht
    obtain ⟨hphase, hop, hcause, houtLen, hinPos⟩ := hjob'.report
    refine ⟨t', ht', ?_, hjob'.output⟩
    rw [(coreTurn_of_coreStep ht').frame, (coreTurn_of_coreStep ht).frame, hphase, hcause, houtLen, hinPos, hwork rfl]
  · cases (coreStep_of_notBusy hb).symm.trans ht
    exact ⟨_, coreStep_of_notBusy hb, rfl, hdst⟩

end Sys2Proof.Machine

/-! PROOFS. Nothing of an earlier job reaches a later one (70_reset_and_hazards.md R256). -/

namespace Sys2Proof.Machine

/-- A turn that ends the job records no more output than there is (R26). -/
theorem CoreTurn.outLen_le {s t : State} (h : CoreTurn s t) (hb : s.phase = .busy) (hend : t.phase ≠ .busy) :
    t.outLen.toNat ≤ t.outPointer := by
  have hmod : ∀ n : Nat, (BitVec.ofNat 64 n).toNat ≤ n := fun n => (BitVec.toNat_ofNat n 64).trans_le (Nat.mod_le _ _)
  cases h with
  | still notBusy same => exact absurd hb notBusy
  | worked busy work =>
    refine absurd ?_ hend
    rw [work.frame]
    exact busy
  | compressed busy op headed atEnd same =>
    rw [same]
    exact (hmod _).trans (State.outPointer_compress (s := s.finished _ _) op).ge
  | decompressed busy op headed atEnd same =>
    rw [same]
    exact (hmod _).trans (State.outPointer_decompress (s := s.finished _ _) op).ge
  | raised busy op c w cursor precise same =>
    rw [same, ← cursor]
    exact (hmod _).trans (State.outPointer_decompress (s := (s.setWork w).raised _ _ _) op).ge

/-- A step of a running job that does not end it leaves a running job. -/
theorem Running.next {s t : State} (h : Running s) (hb : s.phase = .busy) (ht : coreStep s = .next t)
    (hb' : t.phase = .busy) : Running t := by
  have hop : t.op = s.op := by rw [(coreTurn_of_coreStep ht).frame]
  cases h with
  | compress op job =>
    rw [coreStep_compress hb op] at ht
    exact .compress (hop.trans op) (job.next ht hb')
  | decompress op job =>
    rw [coreStep_decompress hb op] at ht
    exact .decompress (hop.trans op) (job.next ht hb')

/-- Two machines after as many steps of the same job: the job runs alike, or it ended alike. -/
structure Alike (s u : State) : Prop where
  quiet : s.inputs = []
  quiet' : u.inputs = []
  report : SameReport s u
  running : s.phase = .busy → Running s ∧ SameJob s u
  ended : s.phase ≠ .busy → ∀ a, a < s.outLen.toNat → u.dst.read a = s.dst.read a

theorem Alike.of_step {s u t : State} (h : Alike s u) (ht : step s = .next t) :
    ∃ t', step u = .next t' ∧ Alike t t' := by
  rw [step_quiet h.quiet] at ht
  rw [step_quiet h.quiet']
  by_cases hb : s.phase = .busy
  · obtain ⟨hrun, hjob⟩ := h.running hb
    obtain ⟨t', ht', hjob', -⟩ := hjob.of_coreStep hb hrun ht
    have hturn := coreTurn_of_coreStep ht
    refine ⟨t', ht', ?_, ?_, hjob'.report, fun hb' => ⟨hrun.next hb ht hb', hjob'⟩, fun hend a ha => ?_⟩
    · rw [hturn.frame]
      exact h.quiet
    · rw [(coreTurn_of_coreStep ht').frame]
      exact h.quiet'
    · exact hjob'.output a (ha.trans_le (hturn.outLen_le hb hend))
  · cases (coreStep_of_notBusy hb).symm.trans ht
    exact ⟨u, coreStep_of_notBusy fun hb' => hb (h.report.1.symm.trans hb'), h⟩

theorem Alike.of_run {s u t : State} (h : Alike s u) {k : Nat} (ht : run k s = .next t) :
    ∃ t', run k u = .next t' ∧ Alike t t' := by
  induction k generalizing s u with
  | zero =>
    cases ht
    exact ⟨u, rfl, h⟩
  | succ k ih =>
    obtain ⟨s1, hs1, ht⟩ := andThen_eq_next ht
    obtain ⟨u1, hu1, h1⟩ := h.of_step hs1
    obtain ⟨t', ht', h'⟩ := ih h1 ht
    refine ⟨t', ?_, h'⟩
    rw [run, hu1, andThen_next, ht']

/-! ## The start of a job -/

section
variable {s u : State} (hs : Ready s) (hu : Ready u) (h : SameInput s u)
include hs hu h

/-- COMPRESS starts alike: its size checks look at SRC_LEN and the parameters alone. -/
theorem alike_of_compress {t : State} (ht : exec .compress s = .next t) :
    ∃ t', exec .compress u = .next t' ∧ Alike t t' := by
  have hsrcLen := h.srcLen
  obtain ⟨hb, -⟩ | ⟨-, hcells, hstart⟩ := accept_eq_next ht
  · exact absurd hb hs.notBusy
  · have hcells' : u.srcHas u.srcLen.toNat = true := by rw [hsrcLen, h.srcHas, hcells]
    rcases startCompress_eq_next hstart with ⟨hlarge, rfl⟩ | ⟨hmax, hroom, rfl⟩
    · refine ⟨_, (accept_of_idle hu.notBusy hcells' _).trans (startCompress_of_tooLarge ?_), hs.quiet, hu.quiet,
        ⟨rfl, rfl, rfl, rfl, rfl⟩, nofun, fun _ a ha => absurd ha (Nat.not_lt_zero a)⟩
      rwa [hsrcLen, h.dstHas]
    · have hroom' : u.dstHas (worstCaseOutput u.srcLen.toNat) = true := by rw [hsrcLen, h.dstHas, hroom]
      refine ⟨_, exec_compress hu.notBusy hcells' (by rwa [hsrcLen]) hroom', hs.quiet, hu.quiet,
        ⟨rfl, rfl, rfl, rfl, rfl⟩, fun _ => ⟨.compress rfl ⟨rfl, hmax, hcells, hroom, .inl ⟨rfl, rfl⟩⟩, ?_⟩,
        fun hb => absurd rfl hb⟩
      exact ⟨⟨h.cfg, hsrcLen, h.src⟩, ⟨rfl, rfl, rfl, rfl, rfl⟩, .compress (congrArg BitVec.toNat hsrcLen) rfl rfl,
        fun a ha => absurd ha (Nat.not_lt_zero a)⟩

/-- DECOMPRESS starts alike. -/
theorem alike_of_decompress {t : State} (ht : exec .decompress s = .next t) :
    ∃ t', exec .decompress u = .next t' ∧ Alike t t' := by
  have hsrcLen := h.srcLen
  obtain ⟨hb, -⟩ | ⟨-, hcells, hstart⟩ := accept_eq_next ht
  · exact absurd hb hs.notBusy
  · have hcells' : u.srcHas u.srcLen.toNat = true := by rw [hsrcLen, h.srcHas, hcells]
    cases hstart
    refine ⟨_, exec_decompress hu.notBusy hcells', hs.quiet, hu.quiet, ⟨rfl, rfl, rfl, rfl, rfl⟩,
      fun _ => ⟨.decompress rfl ⟨hcells, .inl ⟨rfl, rfl⟩⟩, ?_⟩, fun hb => absurd rfl hb⟩
    exact ⟨⟨h.cfg, hsrcLen, h.src⟩, ⟨rfl, rfl, rfl, rfl, rfl⟩, .decompress rfl rfl fun hrp => absurd rfl hrp,
      fun a ha => absurd ha (Nat.not_lt_zero a)⟩

theorem alike_of_command {v : Reg64} (hv : commandOf v = .compress ∨ commandOf v = .decompress) {t : State}
    (ht : step (s.withCommand v) = .next t) : ∃ t', step (u.withCommand v) = .next t' ∧ Alike t t' := by
  rw [hs.step_withCommand] at ht
  rw [hu.step_withCommand]
  rcases hv with hv | hv
  · rw [hv] at ht ⊢
    exact alike_of_compress hs hu h ht
  · rw [hv] at ht ⊢
    exact alike_of_decompress hs hu h ht

end

/-- Settles O40: the jobs start alike, and every step keeps them alike. -/
theorem jobDependsOnlyOnItsInput : Obligations.JobDependsOnlyOnItsInput := by
  intro s u v k t hs hu hcfg hsrcLen hsrc hv ht
  obtain ⟨s1, hs1, ht⟩ := andThen_eq_next ht
  obtain ⟨u1, hu1, h1⟩ := alike_of_command hs hu ⟨hcfg, hsrcLen, hsrc⟩ hv hs1
  obtain ⟨t', ht', h⟩ := h1.of_run ht
  obtain ⟨hphase, hop, hcause, houtLen, hinPos⟩ := h.report
  refine ⟨t', ?_, hphase, hop, hcause, houtLen, hinPos, h.ended⟩
  rw [run, hu1, andThen_next, ht']

end Sys2Proof.Machine
